-- ==== Sys2Proof/Word.lean ====
section
/-! DEFINITION. The value types that cross the block's boundary: bytes, the raw sensor fields, the two
fixed-point outputs, and timestamps (spec/00_scope.md R8, R12; spec/10_state.md R42, R44). -/

namespace Sys2Proof

/-- A wire byte, and every 8-bit register of the decoder (R8, R12). -/
abbrev Byte := BitVec 8

/-- A raw sensor field, 20 bits, unsigned (R163, R164). -/
abbrev Raw20 := BitVec 20

/-- Humidity in hundredths of a percent, unsigned, 14 bits (R44). -/
abbrev Hum100 := BitVec 14

/-- Temperature in hundredths of a degree Celsius, two's complement, 15 bits (R44). -/
abbrev Temp100 := BitVec 15

/-- The carrier of timestamps. DESIGN CHOICE (log entry 4): the spec leaves the type `Time` open
(R9, R191, D18); numbers serve as names of its values, and nothing computes with them. -/
abbrev Time := Nat

end Sys2Proof
end

