-- ==== Sys2Proof/Config.lean ====
section
/-! DEFINITION. The constants the source fixes (spec/00_scope.md R8), the parameters it leaves open (R9), and the
free values (opaque constants with no body: nothing can be proved about their value). -/

namespace Sys2Proof

/-- `PREAMBLE1` (R8). -/
abbrev Config.preamble1 : Byte := 0xAA#8
/-- `PREAMBLE2` (R8). -/
abbrev Config.preamble2 : Byte := 0x55#8
/-- `TX_VERSION`: the version byte the encoder sends (R3, R8). -/
abbrev Config.txVersion : Byte := 1#8
/-- `MAX_PAYLOAD`: the largest legal payload length, and the size of `PBUF` (R8, R28). -/
abbrev Config.maxPayload : Nat := 128
/-- `SENSOR_LEN`: the least payload length the codec accepts (R8). -/
abbrev Config.sensorLen : Nat := 6
/-- `HDR_LEN`: the bytes before the payload, preamble included (R8). -/
abbrev Config.hdrLen : Nat := 6

/-- `SENSOR_LAYOUT` (R9, R162, D11). -/
inductive SensorLayout where
  | statusLast
  | statusFirst
  deriving DecidableEq, Repr

/-- `TIE_RULE`: what rounding does at an exact half (R9, R166, D13). -/
inductive TieRule where
  | halfUp
  | halfAway
  | halfEven
  deriving DecidableEq, Repr

/-- `HEX_CASE`: letter case of hex digits in display strings (R9, R172, D25). -/
inductive HexCase where
  | lower
  | upper
  deriving DecidableEq, Repr

/-- The parameters of R9, fixed when the model is instantiated (R32). -/
structure Params where
  sensorType   : Byte
  sensorLayout : SensorLayout
  tieRule      : TieRule
  hexCase      : HexCase
  deriving DecidableEq, Repr

/-- FREE VALUE (log entry 3): `SENSOR_TYPE` has no value in the source and no default (R9, D14). -/
opaque Config.sensorType : Byte

/-- FREE VALUE (log entry 4): the timestamp of the n-th draw (R191, D18); no law constrains it. -/
opaque Config.timestamp : Nat → Time

/-- The instantiation the reset state carries: the spec's defaults (R9; log entry 9), and the open `SENSOR_TYPE`. -/
def Params.default : Params :=
  { sensorType := Config.sensorType, sensorLayout := .statusLast, tieRule := .halfUp, hexCase := .lower }

end Sys2Proof
end

