-- ==== Sys2Proof/Syntax.lean ====
section
/-! DEFINITION. The eight state tags and the operations of spec/opcode_table.json, one constructor per row. -/

namespace Sys2Proof

/-- The eight values of `STATE` (R17, R21, R22), in the source's order. -/
inductive StateTag where
  | waitPreamble1
  | waitPreamble2
  | readVersion
  | readType
  | readId
  | readLen
  | readPayload
  | readChecksum
  deriving DecidableEq, Repr

/-- The rows of spec/opcode_table.json. A receive step carries its received byte where the row leaves it free. -/
inductive Instr where
  /-- `WP1.SYNC` (R102), byte AA. -/
  | wp1Sync
  /-- `WP1.SKIP` (R103), any byte but AA. -/
  | wp1Skip (byte : Byte)
  /-- `WP2.LOCK` (R104), byte 55. -/
  | wp2Lock
  /-- `WP2.HOLD` (R105), byte AA. -/
  | wp2Hold
  /-- `WP2.MISS` (R106), any byte but 55 and AA. -/
  | wp2Miss (byte : Byte)
  /-- `RDVER` (R107). -/
  | rdver (byte : Byte)
  /-- `RDTYPE` (R108). -/
  | rdtype (byte : Byte)
  /-- `RDID` (R109). -/
  | rdid (byte : Byte)
  /-- `RDLEN.ZERO` (R110), byte 00. -/
  | rdlenZero
  /-- `RDLEN.OVER` (R111), byte 81..FF. -/
  | rdlenOver (byte : Byte)
  /-- `RDLEN.DATA` (R112), byte 01..80. -/
  | rdlenData (byte : Byte)
  /-- `RDPAY.MORE` (R113). -/
  | rdpayMore (byte : Byte)
  /-- `RDPAY.LAST` (R114). -/
  | rdpayLast (byte : Byte)
  /-- `RDCSUM.OK` (R115). -/
  | rdcsumOk (byte : Byte)
  /-- `RDCSUM.BAD` (R116). -/
  | rdcsumBad (byte : Byte)
  /-- `BADSTATE` (R117): the fallback for a tag outside the eight. -/
  | badstate (byte : Byte)
  /-- `FEED` (R118). -/
  | feed (bytes : List Byte)
  /-- `ENCODE` (R141): `type` and `id` are integers of any size (R82, R142). -/
  | encode (typ id : Int) (payload : List Byte)
  /-- `SENSDEC` (R160). -/
  | sensdec (payload : List Byte)
  /-- `CONNECT` (R181). -/
  | connect
  /-- `TEARDOWN` (R182). -/
  | teardown
  /-- `ONBYTES` (R183). -/
  | onbytes (chunk : List Byte)
  /-- `SENDCMD` (R188): `avail` is the transport's answer, a draw (R189). -/
  | sendcmd (typ id : Int) (payload : List Byte) (avail : Bool)
  deriving DecidableEq, Repr

/-- The received byte of a receive step (the fifteen rows of R80); none for the other operations. -/
def Instr.rxByte : Instr → Option Byte
  | .wp1Sync => some Config.preamble1
  | .wp1Skip b => some b
  | .wp2Lock => some Config.preamble2
  | .wp2Hold => some Config.preamble1
  | .wp2Miss b => some b
  | .rdver b => some b
  | .rdtype b => some b
  | .rdid b => some b
  | .rdlenZero => some 0
  | .rdlenOver b => some b
  | .rdlenData b => some b
  | .rdpayMore b => some b
  | .rdpayLast b => some b
  | .rdcsumOk b => some b
  | .rdcsumBad b => some b
  | .badstate _ => none
  | .feed _ => none
  | .encode _ _ _ => none
  | .sensdec _ => none
  | .connect => none
  | .teardown => none
  | .onbytes _ => none
  | .sendcmd _ _ _ _ => none

end Sys2Proof
end

