-- ==== Sys2Proof/WellFormed.lean ====
section
/-! DEFINITION. Which terms of `Instr` stand for an operation: the byte ranges of spec/30_encoding.md R80 and the
payload bound of spec/41_frame_encoder.md R143. -/

namespace Sys2Proof

/-- The byte ranges column of R80, and `len(payload) <= 128` for the two operations that encode (R143). -/
def Instr.wellFormed : Instr → Bool
  | .wp1Sync => true
  | .wp1Skip b => b != Config.preamble1
  | .wp2Lock => true
  | .wp2Hold => true
  | .wp2Miss b => b != Config.preamble2 && b != Config.preamble1
  | .rdver _ => true
  | .rdtype _ => true
  | .rdid _ => true
  | .rdlenZero => true
  | .rdlenOver b => decide (Config.maxPayload < b.toNat)
  | .rdlenData b => decide (1 ≤ b.toNat) && decide (b.toNat ≤ Config.maxPayload)
  | .rdpayMore _ => true
  | .rdpayLast _ => true
  | .rdcsumOk _ => true
  | .rdcsumBad _ => true
  | .badstate _ => true
  | .feed _ => true
  | .encode _ _ p => decide (p.length ≤ Config.maxPayload)
  | .sensdec _ => true
  | .connect => true
  | .teardown => true
  | .onbytes _ => true
  | .sendcmd _ _ p _ => decide (p.length ≤ Config.maxPayload)

end Sys2Proof
end

