-- ==== Sys2Proof/Decode.lean ====
section
/-! DEFINITION. The receive-step selector and the opcode map (spec/30_encoding.md R75, R79, R80), the decoder, the
encoder, and `decodeTableWord`.

A transition is picked by the 11-bit selector `SEL = {STATE[2:0], BYTE[7:0]}` and, in two states, by one register
comparison (R79). The model writes the two together as ONE 16-bit selector word: bits 10..0 are `SEL`, bit 11 is the
result of the register comparison of R80's "register condition" column, bits 15..12 are 0 (DESIGN CHOICE, log entry 5). -/

namespace Sys2Proof

/-- The 3-bit code of a state (R75). -/
def StateTag.code : StateTag → BitVec 3
  | .waitPreamble1 => 0
  | .waitPreamble2 => 1
  | .readVersion => 2
  | .readType => 3
  | .readId => 4
  | .readLen => 5
  | .readPayload => 6
  | .readChecksum => 7

/-- The state a 3-bit code stands for (R75): the eight codes fill the space. -/
def StateTag.ofCode (c : BitVec 3) : StateTag :=
  if c = 0 then .waitPreamble1
  else if c = 1 then .waitPreamble2
  else if c = 2 then .readVersion
  else if c = 3 then .readType
  else if c = 4 then .readId
  else if c = 5 then .readLen
  else if c = 6 then .readPayload
  else .readChecksum

/-- The "register condition" column of R80. -/
inductive RegCond where
  | always
  | curBeforeEnd
  | curAtEnd
  | accEqual
  | accDiffers
  deriving DecidableEq, Repr

/-- Bit 11 of the selector word: true where the row asks for `CUR + 1 = LEN` or `BYTE = ACC`. -/
def RegCond.bit : RegCond → Bool
  | .always => false
  | .curBeforeEnd => false
  | .curAtEnd => true
  | .accEqual => true
  | .accDiffers => false

/-- The selector word of a state, a received byte and the outcome of the register comparison. -/
def selectorWord (cond : Bool) (t : StateTag) (b : Byte) : BitVec 16 :=
  0#4 ++ BitVec.ofBool cond ++ t.code ++ b

/-- One row of the opcode map of R80: `match`, `mask`, byte ranges, register condition, and the operation. -/
structure OpRow where
  pattern : BitVec 11
  mask    : BitVec 11
  ranges  : List (Byte × Byte)
  cond    : RegCond
  build   : Byte → Instr

/-- The opcode map of R80, row by row. -/
def opcodeMap : List OpRow :=
  [ ⟨0x0AA, 0x7FF, [(0xAA, 0xAA)], .always, fun _ => .wp1Sync⟩,
    ⟨0x000, 0x700, [(0x00, 0xA9), (0xAB, 0xFF)], .always, fun b => .wp1Skip b⟩,
    ⟨0x155, 0x7FF, [(0x55, 0x55)], .always, fun _ => .wp2Lock⟩,
    ⟨0x1AA, 0x7FF, [(0xAA, 0xAA)], .always, fun _ => .wp2Hold⟩,
    ⟨0x100, 0x700, [(0x00, 0x54), (0x56, 0xA9), (0xAB, 0xFF)], .always, fun b => .wp2Miss b⟩ ]
  ++
  [ ⟨0x200, 0x700, [(0x00, 0xFF)], .always, fun b => .rdver b⟩,
    ⟨0x300, 0x700, [(0x00, 0xFF)], .always, fun b => .rdtype b⟩,
    ⟨0x400, 0x700, [(0x00, 0xFF)], .always, fun b => .rdid b⟩,
    ⟨0x500, 0x7FF, [(0x00, 0x00)], .always, fun _ => .rdlenZero⟩,
    ⟨0x500, 0x700, [(0x81, 0xFF)], .always, fun b => .rdlenOver b⟩,
    ⟨0x500, 0x700, [(0x01, 0x80)], .always, fun b => .rdlenData b⟩ ]
  ++
  [ ⟨0x600, 0x700, [(0x00, 0xFF)], .curBeforeEnd, fun b => .rdpayMore b⟩,
    ⟨0x600, 0x700, [(0x00, 0xFF)], .curAtEnd, fun b => .rdpayLast b⟩,
    ⟨0x700, 0x700, [(0x00, 0xFF)], .accEqual, fun b => .rdcsumOk b⟩,
    ⟨0x700, 0x700, [(0x00, 0xFF)], .accDiffers, fun b => .rdcsumBad b⟩ ]

/-- The received byte of a selector word, `SEL[7:0]` (R79). -/
def selByte (w : BitVec 16) : Byte := w.extractLsb' 0 8

/-- A row applies when `(SEL & mask) = match`, the byte lies in its ranges, and its register condition holds (R80). -/
def OpRow.applies (r : OpRow) (w : BitVec 16) : Bool :=
  ((w.extractLsb' 0 11 &&& r.mask) == r.pattern)
    && r.ranges.any (fun p => p.1.ule (selByte w) && (selByte w).ule p.2)
    && (w.getLsbD 11 == r.cond.bit)

/-- Why a 16-bit word is no selector word. -/
inductive DecodeReject where
  /-- A bit of 15..12 is set: `SEL` has 11 bits and the comparison one (R79). -/
  | reservedBits
  /-- The comparison bit is set in a state whose rows test no register (R80). -/
  | comparisonNotTested
  deriving DecidableEq, Repr

/-- The decoder: total on the 16-bit words, rejecting by name. -/
def decodeWord (w : BitVec 16) : Except DecodeReject Instr :=
  if w.extractLsb' 12 4 = 0#4 then
    match opcodeMap.find? (fun r => r.applies w) with
    | some r => .ok (r.build (selByte w))
    | none => .error .comparisonNotTested
  else .error .reservedBits

/-- The word of a row: its `match`, the byte in bits 7..0, and the comparison bit. -/
def rowWord (pattern : BitVec 11) (cond : RegCond) (b : Byte) : BitVec 16 :=
  0#4 ++ BitVec.ofBool cond.bit ++ (pattern ||| b.setWidth 11)

/-- The encoder of receive steps, from the `match` column of R80. The other operations have no bit encoding (R81). -/
def encode : Instr → Option (BitVec 16)
  | .wp1Sync => some (rowWord 0x0AA .always 0xAA)
  | .wp1Skip b => some (rowWord 0x000 .always b)
  | .wp2Lock => some (rowWord 0x155 .always 0x55)
  | .wp2Hold => some (rowWord 0x1AA .always 0xAA)
  | .wp2Miss b => some (rowWord 0x100 .always b)
  | .rdver b => some (rowWord 0x200 .always b)
  | .rdtype b => some (rowWord 0x300 .always b)
  | .rdid b => some (rowWord 0x400 .always b)
  | .rdlenZero => some (rowWord 0x500 .always 0x00)
  | .rdlenOver b => some (rowWord 0x500 .always b)
  | .rdlenData b => some (rowWord 0x500 .always b)
  | .rdpayMore b => some (rowWord 0x600 .curBeforeEnd b)
  | .rdpayLast b => some (rowWord 0x600 .curAtEnd b)
  | .rdcsumOk b => some (rowWord 0x700 .accEqual b)
  | .rdcsumBad b => some (rowWord 0x700 .accDiffers b)
  | .badstate _ => none
  | .feed _ => none
  | .encode _ _ _ => none
  | .sensdec _ => none
  | .connect => none
  | .teardown => none
  | .onbytes _ => none
  | .sendcmd _ _ _ _ => none

/-- The selector word that `nbits` bits with value `w` stand for, the bits above `nbits` being 0. -/
def tableWord (nbits w : Nat) : Option (BitVec 16) :=
  if nbits ≤ 16 ∧ w < 2 ^ nbits then some (BitVec.ofNat 16 w) else none

/-- What the decoder reads from a word of spec/opcode_table.json: bits 10..0 are `SEL` (R79). The table gives the
register comparison no bit, so a table word has comparison bit 0 (log entry 5). -/
def decodeTableWord (nbits w : Nat) : Option Instr :=
  match tableWord nbits w with
  | some word =>
    match decodeWord word with
    | .ok i => some i
    | .error _ => none
  | none => none

end Sys2Proof
end

