-- ==== Sys2Proof/Machine/State.lean ====
section
/-! DEFINITION. The machine's state as plain data: the decoder state of spec/10_state.md R20, the engine state of R39,
the streams and outputs of R50 and R180, the host's pending inputs (R10, R192) and the parameters (R9); the reset state
(R35, R231); and the reasons a step can stop. -/

namespace Sys2Proof.Machine

/-- `PBUF` as a sparse memory: cells in rising order of index, the unlisted indices holding no value (R28, R53). -/
abbrev Memory := List Host.Cell

/-- What an unlisted index reads as: no value ("a byte at an index >= CUR is not state", R28; log entry 6). -/
def Memory.unlisted : Option Byte := none

/-- The decoder state of R20, one field per register. -/
structure DecoderState where
  /-- `STATE` -/
  state   : StateTag
  /-- `VERSION` -/
  version : Byte
  /-- `TYPE` -/
  typ     : Byte
  /-- `ID` -/
  id      : Byte
  /-- `LEN` -/
  len     : Byte
  /-- `ACC` -/
  acc     : Byte
  /-- `CUR` -/
  cur     : Byte
  /-- `PBUF` -/
  pbuf    : Memory
  deriving DecidableEq, Repr

/-- The reset values of R35. -/
def DecoderState.reset : DecoderState :=
  { state := .waitPreamble1, version := 0, typ := 0, id := 0, len := 0, acc := 0, cur := 0, pbuf := [] }

/-- A frame (R42); its length is named as a field although it equals the payload's length (D7). -/
structure Frame where
  version  : Byte
  typ      : Byte
  id       : Byte
  len      : Byte
  payload  : List Byte
  checksum : Byte
  deriving DecidableEq, Repr

/-- What the decoder emits (R43). -/
inductive DecodeEvent where
  | frameReady (f : Frame)
  | checksumMismatch
  deriving DecidableEq, Repr

/-- What the event output carries (R200): the decode events, and the codec's failure. -/
inductive Event where
  | decode (e : DecodeEvent)
  | insufficientPayload
  deriving DecidableEq, Repr

/-- The three wire-derived values of a sensor payload (R160, R44). -/
structure SensorValues where
  hum100  : Hum100
  temp100 : Temp100
  status  : Byte
  deriving DecidableEq, Repr

/-- What a call answers to its caller: `SENDCMD` (R188), `ENCODE` (R141), `SENSDEC` (R160, R200). -/
inductive ReturnValue where
  | accepted
  | unavailable
  | frameBytes (bytes : List Byte)
  | sensorValues (v : SensorValues)
  | insufficientPayload
  deriving DecidableEq, Repr

/-- The outputs a run collects in order (R180, R235): notifications, diagnostics and return values. -/
inductive Output where
  /-- Sink: `FrameReceived` (R184); the frame's checksum is no part of it. -/
  | frameReceived (version typ id len : Byte) (payload : List Byte)
  /-- Sink: `SensorReading` with its timestamp (R191). -/
  | sensorReading (v : SensorValues) (ts : Time)
  /-- Diagnostic output: `ChecksumMismatch` (R187). -/
  | checksumMismatch
  /-- Diagnostic output: `InsufficientPayload` (R186). -/
  | insufficientPayload
  /-- A return value. -/
  | ret (v : ReturnValue)
  deriving DecidableEq, Repr

/-- The operations the host invokes (R81, R192); it reaches the decoder in no other way (R29). -/
inductive HostCall where
  | connect
  | teardown
  | onbytes (chunk : List Byte)
  | sendcmd (typ id : Int) (payload : List Byte) (avail : Bool)
  | encode (typ id : Int) (payload : List Byte)
  | sensdec (payload : List Byte)
  | feed (bytes : List Byte)
  deriving DecidableEq, Repr

/-- The operation a host call stands for. -/
def HostCall.instr : HostCall → Instr
  | .connect => .connect
  | .teardown => .teardown
  | .onbytes chunk => .onbytes chunk
  | .sendcmd typ id payload avail => .sendcmd typ id payload avail
  | .encode typ id payload => .encode typ id payload
  | .sensdec payload => .sensdec payload
  | .feed bytes => .feed bytes

/-- One thing the outside world does: a byte on the RX port (R10 a, R50 a), or a call (R10 b, c). -/
inductive Input where
  | byte (b : Byte)
  | call (c : HostCall)
  deriving DecidableEq, Repr

/-- The machine. `engine` is the block's own state (R20, R39); the other fields are the world around it, held here
because a step is a function of the state (log entry 2). -/
structure State where
  /-- `E`: no connection, or one with its decoder state (R39, R180). -/
  engine  : Option DecoderState
  /-- The parameters of R9; no step changes them (R32). -/
  params  : Params
  /-- What the host will do next, oldest first: RX bytes and calls in the order it chose (R67, R192, R235; log entry 13). -/
  input   : List Input
  /-- TX: the bytes the transport has taken (R50 b, R52). -/
  tx      : List Byte
  /-- The event output: what byte steps and the codec have raised (R13, R200; log entry 14). -/
  events  : List Event
  /-- Notifications, diagnostics and return values in order (R180, R235; log entry 14). -/
  outputs : List Output
  /-- How many timestamps have been drawn (R191, log entry 4). -/
  draws   : Nat
  deriving DecidableEq, Repr

/-- The machine before the first `CONNECT`: no decoder exists (R39, R235), nothing sent, nothing emitted. -/
def State.powerOn : State :=
  { engine := none, params := Params.default, input := [], tx := [], events := [], outputs := [], draws := 0 }

/-- The machine right after a reset, which the spec equates with `CONNECT` (R230, R231): a fresh decoder (log entry 1). -/
def State.reset : State :=
  { State.powerOn with engine := some DecoderState.reset }

/-- Why the machine stops. The spec's decoder never stops (R214): each of these needs a decoder state that breaks the
invariants of R25 and R27, in which the spec gives no transition. -/
inductive Fault where
  /-- Raised by the selection of a transition in `ReadPayload` when `CUR + 1 > LEN`: no row of R80 applies
  ("cannot occur", R114; log entry 16). Safe: the model stops where the spec says nothing. -/
  | noTransition
  /-- Raised by `MemWrite` at an index of 128 or more: only indices 0 to 127 exist (R53, R55; log entry 16). Safe. -/
  | payloadIndexAbsent (index : Nat)
  /-- Raised by `MemRead` at an index that holds no byte ("has no defined result", R56; log entries 6 and 16). Safe. -/
  | payloadByteAbsent (index : Nat)
  deriving DecidableEq, Repr

/-- Why an operation has no meaning in a state. -/
inductive Refusal where
  /-- Raised by a rejected arm of exec: the operation is not modelled. Safe. -/
  | notModelled (mnemonic : String)
  /-- Raised by a received byte, by `ONBYTES` and by `FEED` when there is no connection (R193, U5; log entry 18). Safe. -/
  | noConnection
  /-- Raised by `ENCODE` and `SENDCMD` on a payload of more than 128 bytes (R143, U1; log entry 18). Safe. -/
  | payloadTooLong
  /-- Raised by a receive step whose Operands line does not hold: the opcode map selects another row (R80, R119; log entry 10).
  No step of the machine raises it. Safe. -/
  | notSelected
  /-- Raised by a step whose selector word the decoder rejects. No step of the machine raises it (log entry 5). Safe. -/
  | notASelector
  deriving DecidableEq, Repr

/-- What an operation answers on the machine. -/
abbrev Result := Host.Outcome State Fault Refusal

/-- What a byte step answers on the decoder: the next decoder state and at most one event (R100). -/
abbrev RxResult := Host.Outcome (DecoderState × Option DecodeEvent) Fault Refusal

/-- What feeding a chunk answers on the decoder (R118). -/
abbrev FeedResult := Host.Outcome (DecoderState × List DecodeEvent) Fault Refusal

end Sys2Proof.Machine
end

