-- ==== Sys2Proof/Machine/Flags.lean ====
section
/-! DEFINITION. The block has no flags (spec/10_state.md R31): the conditions its transitions test are computed from the
received byte and the registers within the step and never stored. They stand here, with the register comparison that
completes a selector (spec/30_encoding.md R79). -/

namespace Sys2Proof.Machine

/-- `BYTE = 0xAA`. -/
def isPreamble1 (b : Byte) : Bool := b == Config.preamble1

/-- `BYTE = 0x55`. -/
def isPreamble2 (b : Byte) : Bool := b == Config.preamble2

/-- `BYTE > 128`, unsigned (R122). -/
def lengthOver (b : Byte) : Bool := decide (Config.maxPayload < b.toNat)

/-- `1 <= BYTE <= 128` (R112). -/
def lengthData (b : Byte) : Bool := decide (1 ≤ b.toNat ∧ b.toNat ≤ Config.maxPayload)

/-- `CUR + 1 < LEN`, without wrap (R113, R122). -/
def payloadMore (d : DecoderState) : Bool := decide (d.cur.toNat + 1 < d.len.toNat)

/-- `CUR + 1 = LEN`, without wrap (R114, R122). -/
def payloadLast (d : DecoderState) : Bool := decide (d.cur.toNat + 1 = d.len.toNat)

/-- `BYTE = ACC`, equality of two 8-bit values (R115, R122). -/
def checksumEqual (d : DecoderState) (b : Byte) : Bool := b == d.acc

/-- The register comparison of R80 in the decoder's state: none where `ReadPayload` has `CUR + 1 > LEN`. -/
def registerComparison (d : DecoderState) (b : Byte) : Option Bool :=
  match d.state with
  | .readPayload => if payloadMore d then some false else if payloadLast d then some true else none
  | .readChecksum => some (checksumEqual d b)
  | .waitPreamble1 => some false
  | .waitPreamble2 => some false
  | .readVersion => some false
  | .readType => some false
  | .readId => some false
  | .readLen => some false

/-- The operation the opcode map selects for a received byte (R79, R80). -/
def fetchInstr (d : DecoderState) (b : Byte) : Host.Outcome Instr Fault Refusal :=
  match registerComparison d b with
  | none => .fault .noTransition
  | some c =>
    match decodeWord (selectorWord c d.state b) with
    | .ok i => .next i
    | .error _ => .refused .notASelector

end Sys2Proof.Machine
end

