-- ==== Sys2Proof/Machine/Operands.lean ====
section
/-! DEFINITION. Operand forms: the low byte of a command's `type` and `id` (spec/41_frame_encoder.md R142), and the
fields of a sensor payload (spec/30_encoding.md R83, R84; spec/42_sensor_codec.md R162 to R164). -/

namespace Sys2Proof.Machine

/-- `v mod 256` with the floored `mod`, for every integer: `-1` gives FF (R142, D8). -/
def lowByte (v : Int) : Byte := BitVec.ofInt 8 v

/-- `payload[i]`, read only at an index below the payload's length. -/
def byteAt (payload : List Byte) (i : Nat) : Byte := payload.getD i 0

/-- `STATUS`'s index and the index of `b0`, by `SENSOR_LAYOUT` (R162). -/
def statusIndex : SensorLayout → Nat
  | .statusLast => 5
  | .statusFirst => 0

/-- The index of `b0`; `b1` to `b4` follow it (R162). -/
def fieldsIndex : SensorLayout → Nat
  | .statusLast => 0
  | .statusFirst => 1

/-- `raw_h = (b0 << 12) | (b1 << 4) | (b2 >> 4)`, on 20 bits (R163, R165). -/
def rawHumidity (b0 b1 b2 : Byte) : Raw20 :=
  (b0.setWidth 20 <<< 12) ||| (b1.setWidth 20 <<< 4) ||| (b2.setWidth 20 >>> 4)

/-- `raw_t = ((b2 & 0x0F) << 16) | (b3 << 8) | b4`, on 20 bits (R164, R165). -/
def rawTemperature (b2 b3 b4 : Byte) : Raw20 :=
  ((b2 &&& 0x0F#8).setWidth 20 <<< 16) ||| (b3.setWidth 20 <<< 8) ||| b4.setWidth 20

/-- `raw_h` of a payload under a layout. -/
def payloadRawHumidity (layout : SensorLayout) (p : List Byte) : Raw20 :=
  rawHumidity (byteAt p (fieldsIndex layout)) (byteAt p (fieldsIndex layout + 1)) (byteAt p (fieldsIndex layout + 2))

/-- `raw_t` of a payload under a layout. -/
def payloadRawTemperature (layout : SensorLayout) (p : List Byte) : Raw20 :=
  rawTemperature (byteAt p (fieldsIndex layout + 2)) (byteAt p (fieldsIndex layout + 3)) (byteAt p (fieldsIndex layout + 4))

/-- `STATUS` of a payload under a layout (R169). -/
def payloadStatus (layout : SensorLayout) (p : List Byte) : Byte := byteAt p (statusIndex layout)

end Sys2Proof.Machine
end

