-- ==== Sys2Proof/Machine/Ops.lean ====
section
/-! DEFINITION. The operations the meanings share: the payload buffer's two accesses (spec/20_memory.md R55, R56),
`CLEAR` (spec/40_frame_decoder.md R101), the checksum function (R140), raising an event (R13, R212), and running a
decoder transition on the connection's decoder. -/

namespace Sys2Proof.Machine

/-- The byte an index of `PBUF` holds. -/
def Memory.read : Memory → Nat → Option Byte
  | [], _ => Memory.unlisted
  | (k, v) :: m, a => if a = k then some v else Memory.read m a

/-- `PBUF[a] <- v`, keeping the cells in rising order. -/
def Memory.write : Memory → Nat → Byte → Memory
  | [], a, v => [(a, v)]
  | (k, w) :: m, a, v =>
    if a < k then (a, v) :: (k, w) :: m
    else if a = k then (a, v) :: m
    else (k, w) :: Memory.write m a v

/-- The cells' indices rise strictly from `lo` and lie below 128. -/
def Memory.wfFrom (lo : Nat) : Memory → Bool
  | [] => true
  | (k, _) :: m => decide (lo ≤ k) && decide (k < Config.maxPayload) && Memory.wfFrom (k + 1) m

/-- The canonical form of `PBUF`. No cell equals what an unlisted index reads as, since that is no value. -/
def Memory.wf (m : Memory) : Bool := Memory.wfFrom 0 m

/-- `MemWrite(i, 1, v)`, for `0 <= i <= 127` (R55). -/
def memWrite (m : Memory) (i : Nat) (v : Byte) : Except Fault Memory :=
  if i < Config.maxPayload then .ok (m.write i v) else .error (.payloadIndexAbsent i)

/-- `MemRead(i, 1)`: defined where a byte was written (R56). -/
def memRead (m : Memory) (i : Nat) : Except Fault Byte :=
  match m.read i with
  | some v => .ok v
  | none => .error (.payloadByteAbsent i)

/-- `[MemRead(a,1), ..., MemRead(a+n-1,1)]`: the copy-out of R56 and R57. -/
def copyOut (m : Memory) (a : Nat) : Nat → Except Fault (List Byte)
  | 0 => .ok []
  | n + 1 =>
    match memRead m a with
    | .error f => .error f
    | .ok v =>
      match copyOut m (a + 1) n with
      | .error f => .error f
      | .ok vs => .ok (v :: vs)

/-- `cksum(s) = sum(s) mod 256` (R140). -/
def cksum (s : List Byte) : Byte := s.foldl (fun acc b => acc + b) 0

/-- `ACC <- (ACC + BYTE) mod 256` (R122). -/
def accumulate (acc b : Byte) : Byte := acc + b

/-- `CLEAR` (R101): every data register 0, `PBUF` empty, `STATE <- WaitPreamble1`. -/
def clear (d : DecoderState) : DecoderState :=
  { d with version := 0, typ := 0, id := 0, len := 0, acc := 0, cur := 0, pbuf := [], state := .waitPreamble1 }

/-- `MemWrite(CUR, 1, BYTE); CUR <- CUR + 1; ACC <- (ACC + BYTE) mod 256; STATE <- next` (R113, R114). -/
def storePayloadByte (b : Byte) (next : StateTag) (d : DecoderState) : RxResult :=
  match memWrite d.pbuf d.cur.toNat b with
  | .error f => .fault f
  | .ok m =>
    .next ({ d with pbuf := m, cur := d.cur + 1, acc := accumulate d.acc b, state := next }, none)

/-- The frame of R115, built from the register values before `CLEAR` takes effect. -/
def captureFrame (d : DecoderState) (checksum : Byte) : Except Fault Frame :=
  match copyOut d.pbuf 0 d.len.toNat with
  | .error f => .error f
  | .ok p =>
    .ok { version := d.version, typ := d.typ, id := d.id, len := d.len, payload := p, checksum := checksum }

/-- `E <- e`. -/
def State.setEngine (s : State) (e : Option DecoderState) : State := { s with engine := e }

/-- `raise`: the events appear on the event output in this step; nothing else changes (R13, R212). -/
def State.raise (s : State) (es : List Event) : State := { s with events := s.events ++ es }

/-- An output to the sink, to the diagnostic output or to a caller (R180). -/
def State.output (s : State) (os : List Output) : State := { s with outputs := s.outputs ++ os }

/-- `TX <- TX ++ bytes` (R52). -/
def State.transmit (s : State) (bytes : List Byte) : State := { s with tx := s.tx ++ bytes }

/-- The host's remaining inputs. -/
def State.setInput (s : State) (is : List Input) : State := { s with input := is }

/-- One timestamp has been drawn (R191). -/
def State.countDraw (s : State) : State := { s with draws := s.draws + 1 }

/-- Runs one decoder transition on the connection's decoder and raises its event. Without a connection there is no
decoder to run it on (R193). -/
def rxApply (f : DecoderState → RxResult) (s : State) : Result :=
  match s.engine with
  | none => .refused .noConnection
  | some d =>
    match f d with
    | .next (d', ev) => .next ((s.setEngine (some d')).raise (ev.toList.map Event.decode))
    | .fault r => .fault r
    | .refused r => .refused r

/-- The numeric code of an event on a hardware event port (R200, D20); no event has code 0. -/
def eventCode : Option Event → BitVec 2
  | none => 0
  | some (.decode (.frameReady _)) => 1
  | some (.decode .checksumMismatch) => 2
  | some .insufficientPayload => 3

end Sys2Proof.Machine
end

