-- ==== Sys2Proof/Machine/Encoder.lean ====
section
/-! DEFINITION. The frame encoder: the frame's bytes, `FRAMEV`, `FRAME` and `ENCODE`
(spec/41_frame_encoder.md R141 to R144; spec/30_encoding.md R70 to R73, R86). -/

namespace Sys2Proof.Machine

/-- The summed bytes of a frame: version, type, id, length, payload (R73, R140). -/
def frameBody (version typ id : Byte) (payload : List Byte) : List Byte :=
  [version, typ, id, BitVec.ofNat 8 payload.length] ++ payload

/-- `FRAMEV(v, t, i, p)`: a well-formed frame with any version byte (R86). -/
def frameV (version typ id : Byte) (payload : List Byte) : List Byte :=
  [Config.preamble1, Config.preamble2] ++ frameBody version typ id payload
    ++ [cksum (frameBody version typ id payload)]

/-- The bytes of `ENCODE(type, id, payload)` (R141): `FRAME`, version 1, `type` and `id` cut to their low byte. -/
def encodeFrame (typ id : Int) (payload : List Byte) : List Byte :=
  frameV Config.txVersion (lowByte typ) (lowByte id) payload

/-- The encoder on its precondition `len(payload) <= 128`; no result outside it (R143). -/
def encodeChecked (typ id : Int) (payload : List Byte) : Except Refusal (List Byte) :=
  if payload.length ≤ Config.maxPayload then .ok (encodeFrame typ id payload) else .error .payloadTooLong

/-- `ENCODE` (R141): answers the frame's bytes to its caller; reads and writes no state. -/
def execEncode (typ id : Int) (payload : List Byte) (s : State) : Result :=
  match encodeChecked typ id payload with
  | .ok bytes => .next (s.output [.ret (.frameBytes bytes)])
  | .error r => .refused r

end Sys2Proof.Machine
end

