-- ==== Sys2Proof/Machine/Header.lean ====
section
/-! DEFINITION. Reading the header: `RDVER`, `RDTYPE`, `RDID`, `RDLEN.ZERO`, `RDLEN.OVER`, `RDLEN.DATA`
(spec/40_frame_decoder.md R107 to R112). -/

namespace Sys2Proof.Machine

/-- R107: `ACC` is assigned, not added to. -/
def rdver (b : Byte) (d : DecoderState) : RxResult :=
  if d.state = .readVersion then .next ({ d with version := b, acc := b, state := .readType }, none)
  else .refused .notSelected

/-- R108. -/
def rdtype (b : Byte) (d : DecoderState) : RxResult :=
  if d.state = .readType then
    .next ({ d with typ := b, acc := accumulate d.acc b, state := .readId }, none)
  else .refused .notSelected

/-- R109. -/
def rdid (b : Byte) (d : DecoderState) : RxResult :=
  if d.state = .readId then
    .next ({ d with id := b, acc := accumulate d.acc b, state := .readLen }, none)
  else .refused .notSelected

/-- R110: `CUR` is 0 and `PBUF` empty already. -/
def rdlenZero (d : DecoderState) : RxResult :=
  if d.state = .readLen then
    .next ({ d with len := 0, acc := accumulate d.acc 0, state := .readChecksum }, none)
  else .refused .notSelected

/-- R111: the frame is abandoned without an event. -/
def rdlenOver (b : Byte) (d : DecoderState) : RxResult :=
  if d.state = .readLen ∧ lengthOver b then .next (clear d, none)
  else .refused .notSelected

/-- R112: `CUR <- 0` makes `PBUF` empty (R28). -/
def rdlenData (b : Byte) (d : DecoderState) : RxResult :=
  if d.state = .readLen ∧ lengthData b then
    .next ({ d with len := b, acc := accumulate d.acc b, cur := 0, pbuf := [], state := .readPayload }, none)
  else .refused .notSelected

/-- `RDVER` (R107). -/
def execRdver (b : Byte) (s : State) : Result := rxApply (rdver b) s

/-- `RDTYPE` (R108). -/
def execRdtype (b : Byte) (s : State) : Result := rxApply (rdtype b) s

/-- `RDID` (R109). -/
def execRdid (b : Byte) (s : State) : Result := rxApply (rdid b) s

/-- `RDLEN.ZERO` (R110). -/
def execRdlenZero (s : State) : Result := rxApply rdlenZero s

/-- `RDLEN.OVER` (R111). -/
def execRdlenOver (b : Byte) (s : State) : Result := rxApply (rdlenOver b) s

/-- `RDLEN.DATA` (R112). -/
def execRdlenData (b : Byte) (s : State) : Result := rxApply (rdlenData b) s

end Sys2Proof.Machine
end

