-- ==== Sys2Proof/Machine/Hunt.lean ====
section
/-! DEFINITION. Hunting for the preamble: `WP1.SYNC`, `WP1.SKIP`, `WP2.LOCK`, `WP2.HOLD`, `WP2.MISS`
(spec/40_frame_decoder.md R102 to R106). A transition on the decoder first, then the operation on the machine. A
transition whose Operands line does not hold is refused: the opcode map selects another row. -/

namespace Sys2Proof.Machine

/-- R102: first preamble byte seen. -/
def wp1Sync (d : DecoderState) : RxResult :=
  if d.state = .waitPreamble1 then .next ({ d with state := .waitPreamble2 }, none)
  else .refused .notSelected

/-- R103: nothing is written. -/
def wp1Skip (b : Byte) (d : DecoderState) : RxResult :=
  if d.state = .waitPreamble1 ∧ isPreamble1 b = false then .next (d, none)
  else .refused .notSelected

/-- R104: second preamble byte seen; `ACC` is not touched. -/
def wp2Lock (d : DecoderState) : RxResult :=
  if d.state = .waitPreamble2 then .next ({ d with state := .readVersion }, none)
  else .refused .notSelected

/-- R105: a repeated first preamble byte; nothing is written. -/
def wp2Hold (d : DecoderState) : RxResult :=
  if d.state = .waitPreamble2 then .next (d, none)
  else .refused .notSelected

/-- R106: silent resynchronisation. -/
def wp2Miss (b : Byte) (d : DecoderState) : RxResult :=
  if d.state = .waitPreamble2 ∧ isPreamble2 b = false ∧ isPreamble1 b = false then .next ({ d with state := .waitPreamble1 }, none)
  else .refused .notSelected

/-- `WP1.SYNC` (R102). -/
def execWp1Sync (s : State) : Result := rxApply wp1Sync s

/-- `WP1.SKIP` (R103). -/
def execWp1Skip (b : Byte) (s : State) : Result := rxApply (wp1Skip b) s

/-- `WP2.LOCK` (R104). -/
def execWp2Lock (s : State) : Result := rxApply wp2Lock s

/-- `WP2.HOLD` (R105). -/
def execWp2Hold (s : State) : Result := rxApply wp2Hold s

/-- `WP2.MISS` (R106). -/
def execWp2Miss (b : Byte) (s : State) : Result := rxApply (wp2Miss b) s

end Sys2Proof.Machine
end

