-- ==== Sys2Proof/Machine/Payload.lean ====
section
/-! DEFINITION. Reading the payload and checking the checksum: `RDPAY.MORE`, `RDPAY.LAST`, `RDCSUM.OK`, `RDCSUM.BAD`,
and the fallback `BADSTATE` (spec/40_frame_decoder.md R113 to R117). -/

namespace Sys2Proof.Machine

/-- R113: `STATE` stays `ReadPayload`. -/
def rdpayMore (b : Byte) (d : DecoderState) : RxResult :=
  if d.state = .readPayload ∧ payloadMore d then storePayloadByte b .readPayload d
  else .refused .notSelected

/-- R114. -/
def rdpayLast (b : Byte) (d : DecoderState) : RxResult :=
  if d.state = .readPayload ∧ payloadLast d then storePayloadByte b .readChecksum d
  else .refused .notSelected

/-- R115: the frame is emitted and the decoder cleared. -/
def rdcsumOk (b : Byte) (d : DecoderState) : RxResult :=
  if d.state = .readChecksum ∧ checksumEqual d b then
    match captureFrame d b with
    | .error f => .fault f
    | .ok f => .next (clear d, some (.frameReady f))
  else .refused .notSelected

/-- R116: the frame is dropped and the decoder cleared. -/
def rdcsumBad (b : Byte) (d : DecoderState) : RxResult :=
  if d.state = .readChecksum ∧ checksumEqual d b = false then .next (clear d, some .checksumMismatch)
  else .refused .notSelected

/-- R117: the byte is consumed and the decoder cleared. `STATE` here has exactly the eight values (R22), so no selector
picks this operation (log entry 7). -/
def badstate (_b : Byte) (d : DecoderState) : RxResult := .next (clear d, none)

/-- `RDPAY.MORE` (R113). -/
def execRdpayMore (b : Byte) (s : State) : Result := rxApply (rdpayMore b) s

/-- `RDPAY.LAST` (R114). -/
def execRdpayLast (b : Byte) (s : State) : Result := rxApply (rdpayLast b) s

/-- `RDCSUM.OK` (R115). -/
def execRdcsumOk (b : Byte) (s : State) : Result := rxApply (rdcsumOk b) s

/-- `RDCSUM.BAD` (R116). -/
def execRdcsumBad (b : Byte) (s : State) : Result := rxApply (rdcsumBad b) s

/-- `BADSTATE` (R117). -/
def execBadstate (b : Byte) (s : State) : Result := rxApply (badstate b) s

end Sys2Proof.Machine
end

