-- ==== Sys2Proof/Machine/Feed.lean ====
section
/-! DEFINITION. The byte step and `FEED` (spec/40_frame_decoder.md R100, R118). -/

namespace Sys2Proof.Machine

/-- The transition a receive step names (R102 to R117); the other operations are no receive steps. -/
def transition (i : Instr) (d : DecoderState) : RxResult :=
  match i with
  | .wp1Sync => wp1Sync d
  | .wp1Skip b => wp1Skip b d
  | .wp2Lock => wp2Lock d
  | .wp2Hold => wp2Hold d
  | .wp2Miss b => wp2Miss b d
  | .rdver b => rdver b d
  | .rdtype b => rdtype b d
  | .rdid b => rdid b d
  | .rdlenZero => rdlenZero d
  | .rdlenOver b => rdlenOver b d
  | .rdlenData b => rdlenData b d
  | .rdpayMore b => rdpayMore b d
  | .rdpayLast b => rdpayLast b d
  | .rdcsumOk b => rdcsumOk b d
  | .rdcsumBad b => rdcsumBad b d
  | .badstate b => badstate b d
  | .feed _ => .refused .notSelected
  | .encode _ _ _ => .refused .notSelected
  | .sensdec _ => .refused .notSelected
  | .connect => .refused .notSelected
  | .teardown => .refused .notSelected
  | .onbytes _ => .refused .notSelected
  | .sendcmd _ _ _ _ => .refused .notSelected

/-- `step(S, BYTE)` of R100: the opcode map selects the transition, which runs. -/
def byteStep (d : DecoderState) (b : Byte) : RxResult :=
  match fetchInstr d b with
  | .next i => transition i d
  | .fault r => .fault r
  | .refused r => .refused r

/-- `feed(S, bytes)` of R118: the byte steps in order, their events collected in order. -/
def feed (d : DecoderState) : List Byte → FeedResult
  | [] => .next (d, [])
  | b :: rest =>
    match byteStep d b with
    | .fault r => .fault r
    | .refused r => .refused r
    | .next (d1, ev) =>
      match feed d1 rest with
      | .fault r => .fault r
      | .refused r => .refused r
      | .next (d2, evs) => .next (d2, ev.toList ++ evs)

/-- Feeds the connection's decoder and raises the events (R118, R183). -/
def feedEngine (bytes : List Byte) (s : State) : Host.Outcome (State × List DecodeEvent) Fault Refusal :=
  match s.engine with
  | none => .refused .noConnection
  | some d =>
    match feed d bytes with
    | .fault r => .fault r
    | .refused r => .refused r
    | .next (d', evs) => .next ((s.setEngine (some d')).raise (evs.map Event.decode), evs)

/-- `FEED` (R118): the decoder alone runs; what the engine makes of the events is `ONBYTES` (R183; log entry 11). -/
def execFeed (bytes : List Byte) (s : State) : Result :=
  match feedEngine bytes s with
  | .next (s', _) => .next s'
  | .fault r => .fault r
  | .refused r => .refused r

end Sys2Proof.Machine
end

