-- ==== Sys2Proof/Machine/Sensor.lean ====
section
/-! DEFINITION. The sensor-payload decoder: rounding, the two scalings, and `SENSDEC`
(spec/42_sensor_codec.md R160 to R174). Exact integers throughout, narrowed once at the end (R174). -/

namespace Sys2Proof.Machine

/-- What `TIE_RULE` answers at an exact half, for `q` of numerator `n` and floor `f` (R166). -/
def tieResult (tie : TieRule) (n f : Int) : Int :=
  match tie with
  | .halfUp => f + 1
  | .halfAway => if 0 < n then f + 1 else f
  | .halfEven => if f % 2 = 0 then f else f + 1

/-- `rnd(n / d)` for a positive `d`: the nearest integer, `TIE_RULE` deciding at an exact half (R166). -/
def rnd (tie : TieRule) (n : Int) (d : Nat) : Int :=
  if 2 * (n % d) < d then n / d
  else if (d : Int) < 2 * (n % d) then n / d + 1
  else tieResult tie n (n / d)

/-- `rnd(raw_h * 10000 / 2^20)` (R167). -/
def humidityHundredths (tie : TieRule) (raw : Raw20) : Int := rnd tie (raw.toNat * 10000) (2 ^ 20)

/-- `rnd(raw_t * 20000 / 2^20 - 5000)`: the rounding is applied to the final value (R168). -/
def temperatureHundredths (tie : TieRule) (raw : Raw20) : Int :=
  rnd tie (raw.toNat * 20000 - 5000 * 2 ^ 20) (2 ^ 20)

/-- `HUM100` on its 14 bits (R44). -/
def hum100 (tie : TieRule) (raw : Raw20) : Hum100 := BitVec.ofInt 14 (humidityHundredths tie raw)

/-- `TEMP100` on its 15 bits, two's complement (R44). -/
def temp100 (tie : TieRule) (raw : Raw20) : Temp100 := BitVec.ofInt 15 (temperatureHundredths tie raw)

/-- `SENSDEC(payload)` (R160): none stands for `InsufficientPayload`, tested on the length alone (R161). -/
def sensdec (p : Params) (payload : List Byte) : Option SensorValues :=
  if payload.length < Config.sensorLen then none
  else some
    { hum100 := hum100 p.tieRule (payloadRawHumidity p.sensorLayout payload)
      temp100 := temp100 p.tieRule (payloadRawTemperature p.sensorLayout payload)
      status := payloadStatus p.sensorLayout payload }

/-- `SENSDEC` (R160): answers the three values, or raises `InsufficientPayload` and reports it to the caller (R200; log entry 8). -/
def execSensdec (payload : List Byte) (s : State) : Result :=
  match sensdec s.params payload with
  | some v => .next (s.output [.ret (.sensorValues v)])
  | none => .next ((s.raise [.insufficientPayload]).output [.ret .insufficientPayload])

end Sys2Proof.Machine
end

