-- ==== Sys2Proof/Machine/Engine.lean ====
section
/-! DEFINITION. The protocol engine: dispatch of decode events, `CONNECT`, `TEARDOWN`, `ONBYTES`, `SENDCMD`
(spec/43_protocol_engine.md R180 to R193). -/

namespace Sys2Proof.Machine

/-- `notify FrameReceived{...}` (R184). -/
def notifyFrame (f : Frame) (s : State) : State :=
  s.output [.frameReceived f.version f.typ f.id f.len f.payload]

/-- The sensor dispatch of a frame of the sensor type (R185, R186): a reading with a drawn timestamp (R191), or
`InsufficientPayload` on the diagnostic output. -/
def dispatchSensor (f : Frame) (s : State) : State :=
  if Config.sensorLen ≤ f.len.toNat then
    match sensdec s.params f.payload with
    | some v => (s.output [.sensorReading v (Config.timestamp s.draws)]).countDraw
    | none => s.output [.insufficientPayload]
  else s.output [.insufficientPayload]

/-- What the engine does with one decode event (the loop body of R183). -/
def dispatchEvent (s : State) (e : DecodeEvent) : State :=
  match e with
  | .frameReady f =>
    if f.typ = s.params.sensorType then dispatchSensor f (notifyFrame f s) else notifyFrame f s
  | .checksumMismatch => s.output [.checksumMismatch]

/-- The loop of R183: the events in order. -/
def dispatchAll (s : State) (es : List DecodeEvent) : State := es.foldl dispatchEvent s

/-- The decode events among raised events. -/
def decodeEvents : List Event → List DecodeEvent
  | [] => []
  | .decode e :: es => e :: decodeEvents es
  | .insufficientPayload :: es => decodeEvents es

/-- The dispatch that follows a byte step inside the engine (R10 a): of the events raised since `before`. -/
def dispatchRaised (before after : State) : State :=
  dispatchAll after (decodeEvents (after.events.drop before.events.length))

/-- `CONNECT` (R181): a fresh decoder, whatever was there before; no event. -/
def execConnect (s : State) : Result := .next (s.setEngine (some DecoderState.reset))

/-- `TEARDOWN` (R182): the decoder state is dropped; no event. -/
def execTeardown (s : State) : Result := .next (s.setEngine none)

/-- `ONBYTES` (R183): feeds the chunk, then dispatches its events in order. -/
def execOnbytes (chunk : List Byte) (s : State) : Result :=
  match feedEngine chunk s with
  | .next (s', evs) => .next (dispatchAll s' evs)
  | .fault r => .fault r
  | .refused r => .refused r

/-- The transport's answer to a write: the whole frame, or nothing (R188, R189; log entry 12). -/
def offer (bytes : List Byte) (avail : Bool) (s : State) : State :=
  if avail then (s.transmit bytes).output [.ret .accepted] else s.output [.ret .unavailable]

/-- `SENDCMD` (R188): encodes, offers the bytes, answers the transport's answer; `E` is neither read nor written. -/
def execSendcmd (typ id : Int) (payload : List Byte) (avail : Bool) (s : State) : Result :=
  match encodeChecked typ id payload with
  | .ok bytes => .next (offer bytes avail s)
  | .error r => .refused r

end Sys2Proof.Machine
end

