-- ==== Sys2Proof/Machine/Dispatch.lean ====
section
/-! DEFINITION. exec: one arm per operation of spec/opcode_table.json, each one direct call of its meaning. -/

namespace Sys2Proof.Machine

def exec (i : Instr) (s : State) : Host.Outcome State Fault Refusal :=
  match i with
  | .wp1Sync => Sys2Proof.Machine.execWp1Sync s
  | .wp1Skip b => Sys2Proof.Machine.execWp1Skip b s
  | .wp2Lock => Sys2Proof.Machine.execWp2Lock s
  | .wp2Hold => Sys2Proof.Machine.execWp2Hold s
  | .wp2Miss b => Sys2Proof.Machine.execWp2Miss b s
  | .rdver b => Sys2Proof.Machine.execRdver b s
  | .rdtype b => Sys2Proof.Machine.execRdtype b s
  | .rdid b => Sys2Proof.Machine.execRdid b s
  | .rdlenZero => Sys2Proof.Machine.execRdlenZero s
  | .rdlenOver b => Sys2Proof.Machine.execRdlenOver b s
  | .rdlenData b => Sys2Proof.Machine.execRdlenData b s
  | .rdpayMore b => Sys2Proof.Machine.execRdpayMore b s
  | .rdpayLast b => Sys2Proof.Machine.execRdpayLast b s
  | .rdcsumOk b => Sys2Proof.Machine.execRdcsumOk b s
  | .rdcsumBad b => Sys2Proof.Machine.execRdcsumBad b s
  | .badstate b => Sys2Proof.Machine.execBadstate b s
  | .feed bytes => Sys2Proof.Machine.execFeed bytes s
  | .encode typ id payload => Sys2Proof.Machine.execEncode typ id payload s
  | .sensdec payload => Sys2Proof.Machine.execSensdec payload s
  | .connect => Sys2Proof.Machine.execConnect s
  | .teardown => Sys2Proof.Machine.execTeardown s
  | .onbytes chunk => Sys2Proof.Machine.execOnbytes chunk s
  | .sendcmd typ id payload avail => Sys2Proof.Machine.execSendcmd typ id payload avail s

end Sys2Proof.Machine
end

