-- ==== Sys2Proof/Machine/Fetch.lean ====
section
/-! DEFINITION. Where the machine's next operation comes from (the host's inputs in order, spec/00_scope.md R10,
spec/43_protocol_engine.md R192), what follows a receive step inside the engine (R10 a, R183), and how a selector word
is placed so that the next step runs it. -/

namespace Sys2Proof.Machine

/-- The next operation: none when the host has issued nothing, the call it issued, or the receive step that the opcode
map selects for the byte it delivered (R79, R80). The input is consumed (R51, R64). -/
def fetch (s : State) : Host.Outcome (Option Instr × State) Fault Refusal :=
  match s.input with
  | [] => .next (none, s)
  | .call c :: rest => .next (some c.instr, s.setInput rest)
  | .byte b :: rest =>
    match s.engine with
    | none => .refused .noConnection
    | some d =>
      match fetchInstr d b with
      | .next i => .next (some i, s.setInput rest)
      | .fault r => .fault r
      | .refused r => .refused r

/-- Inside the engine a receive step is followed by the dispatch of what it raised (R10 a, R183); a call by nothing. -/
def afterExec (i : Instr) (before after : State) : State :=
  match i.rxByte with
  | some _ => dispatchRaised before after
  | none => after

/-- The decoder state in which the register comparison of a selector word comes out as the word's bit 11 says; the
registers are written only where it does not already (log entry 5). -/
def forceComparison (c : Bool) (b : Byte) (d : DecoderState) : DecoderState :=
  match d.state with
  | .readPayload =>
    if registerComparison d b = some c then d
    else { d with cur := 0, pbuf := [], len := if c then 1 else 2 }
  | .readChecksum =>
    if registerComparison d b = some c then d
    else { d with acc := if c then b else b + 1 }
  | .waitPreamble1 => d
  | .waitPreamble2 => d
  | .readVersion => d
  | .readType => d
  | .readId => d
  | .readLen => d

/-- Places a selector word: the decoder in the word's state, the word's byte next on the RX port. -/
def placeSelector (w : BitVec 16) (s : State) : State :=
  let d := s.engine.getD DecoderState.reset
  let d1 := { d with state := StateTag.ofCode (w.extractLsb' 8 3) }
  { s with
    engine := some (forceComparison (w.getLsbD 11) (selByte w) d1)
    input := .byte (selByte w) :: s.input }

end Sys2Proof.Machine
end

