-- ==== Sys2Proof/Machine/Step.lean ====
section
/-! DEFINITION. One step of the machine, and the placing of an operation so that the next step runs it. -/

namespace Sys2Proof.Machine

/-- One step: the next input is fetched and its operation runs to completion (R10, R63). With no input the block does
nothing (R252: it waits on nothing but its next input). -/
def step (s : State) : Host.Outcome State Fault Refusal :=
  match fetch s with
  | .fault r => .fault r
  | .refused r => .refused r
  | .next (none, s1) => .next s1
  | .next (some i, s1) =>
    match exec i s1 with
    | .next t => .next (afterExec i s1 t)
    | .fault r => .fault r
    | .refused r => .refused r

/-- `s` with the operation of a table word placed where `step` fetches next: for a receive step, the decoder in the
selector's state and the selector's byte next on the RX port (log entry 5). A word that is no selector changes nothing. -/
def State.withFetchWord (s : State) (nbits w : Nat) : State :=
  match decodeTableWord nbits w, tableWord nbits w with
  | some _, some word => placeSelector word s
  | _, _ => s

end Sys2Proof.Machine
end

