-- ==== Sys2Proof/Safety.lean ====
section
/-! DEFINITION. The invariants the spec gives the decoder state (spec/10_state.md R25, R27, R28, R36;
spec/40_frame_decoder.md R122), the frames and outputs (R42, R170), and what a safe run is (R214). -/

namespace Sys2Proof.Machine

/-- The state an outcome goes on with, if it goes on. -/
def nextOf (r : Result) : Option State :=
  match r with
  | .next s => some s
  | .fault _ => none
  | .refused _ => none

/-- The bytes of `PBUF[0 .. n-1]` that are held, in index order. -/
def Memory.bytes (m : Memory) : List Byte := m.map Prod.snd

/-- *Hunting* (R16): `STATE` is one of the two preamble states. -/
abbrev StateTag.hunting (t : StateTag) : Prop := t = .waitPreamble1 ∨ t = .waitPreamble2

/-- `LEN` against `CUR`, by state: R25, R27, and before the payload `CUR = 0` (R110, R112). -/
def DecoderState.cursorOk (d : DecoderState) : Prop :=
  match d.state with
  | .waitPreamble1 => d.cur = 0
  | .waitPreamble2 => d.cur = 0
  | .readVersion => d.cur = 0
  | .readType => d.cur = 0
  | .readId => d.cur = 0
  | .readLen => d.cur = 0
  | .readPayload => 1 ≤ d.len.toNat ∧ d.len.toNat ≤ Config.maxPayload ∧ d.cur.toNat < d.len.toNat
  | .readChecksum => d.len.toNat ≤ Config.maxPayload ∧ d.cur = d.len

/-- `ACC` is the checksum of what has been summed so far, by state (R107 to R114, R122). -/
def DecoderState.accOk (d : DecoderState) : Prop :=
  match d.state with
  | .waitPreamble1 => d.acc = 0
  | .waitPreamble2 => d.acc = 0
  | .readVersion => d.acc = 0
  | .readType => d.acc = cksum [d.version]
  | .readId => d.acc = cksum [d.version, d.typ]
  | .readLen => d.acc = cksum [d.version, d.typ, d.id]
  | .readPayload => d.acc = cksum ([d.version, d.typ, d.id, d.len] ++ d.pbuf.bytes)
  | .readChecksum => d.acc = cksum ([d.version, d.typ, d.id, d.len] ++ d.pbuf.bytes)

/-- The decoder invariant: a hunting decoder is in one of exactly two states (R36), the cursor and length agree (R25,
R27), `PBUF` holds exactly the indices below `CUR` (R28) in canonical form, `ACC` is the running sum (R122). -/
structure DecoderState.Inv (d : DecoderState) : Prop where
  hunt   : StateTag.hunting d.state → d = { DecoderState.reset with state := d.state }
  cursor : d.cursorOk
  held   : d.pbuf.map Prod.fst = List.range d.cur.toNat
  sum    : d.accOk

/-- The `Frame` invariant of R42. -/
def Frame.valid (f : Frame) : Prop :=
  f.len.toNat = f.payload.length ∧ f.payload.length ≤ Config.maxPayload ∧
    f.checksum = cksum ([f.version, f.typ, f.id, f.len] ++ f.payload)

/-- The ranges of R170. -/
def SensorValues.inRange (v : SensorValues) : Prop :=
  v.hum100.toNat ≤ 10000 ∧ -5000 ≤ v.temp100.toInt ∧ v.temp100.toInt ≤ 15000

/-- Every emitted frame is checksum-valid (R42). -/
def Event.ok : Event → Prop
  | .decode (.frameReady f) => f.valid
  | .decode .checksumMismatch => True
  | .insufficientPayload => True

/-- Every notification comes from a valid frame's fields, and every value is in range (R42, R170). -/
def Output.ok : Output → Prop
  | .frameReceived _ _ _ len payload => len.toNat = payload.length ∧ payload.length ≤ Config.maxPayload
  | .sensorReading v _ => v.inRange
  | .checksumMismatch => True
  | .insufficientPayload => True
  | .ret (.sensorValues v) => v.inRange
  | .ret _ => True

/-- Whether an output is a return value, which goes to the caller of a command and not to the sink (R180). -/
def Output.isReturn : Output → Bool
  | .ret _ => true
  | .frameReceived _ _ _ _ _ => false
  | .sensorReading _ _ => false
  | .checksumMismatch => false
  | .insufficientPayload => false

/-- The machine invariant: the decoder's, and that of everything emitted. -/
structure State.Inv (s : State) : Prop where
  decoder : ∀ d, s.engine = some d → d.Inv
  events  : ∀ e ∈ s.events, e.ok
  outputs : ∀ o ∈ s.outputs, o.ok

/-- The host moves that have no meaning (R193, R143): the only ones a step refuses. -/
def State.refusedMove (s : State) : Option Refusal :=
  match s.input with
  | .byte _ :: _ => if s.engine = none then some .noConnection else none
  | .call (.onbytes _) :: _ => if s.engine = none then some .noConnection else none
  | .call (.feed _) :: _ => if s.engine = none then some .noConnection else none
  | .call (.sendcmd _ _ p _) :: _ => if p.length ≤ Config.maxPayload then none else some .payloadTooLong
  | .call (.encode _ _ p) :: _ => if p.length ≤ Config.maxPayload then none else some .payloadTooLong
  | .call .connect :: _ => none
  | .call .teardown :: _ => none
  | .call (.sensdec _) :: _ => none
  | [] => none

/-- A step is safe when it goes on: the machine has no fault state and no stuck state (R214). -/
def Safe (s : State) : Prop := ∃ t, step s = .next t

/-- `n` steps, stopping at the first fault or refusal. -/
def runSteps : Nat → State → Result
  | 0, s => .next s
  | n + 1, s =>
    match step s with
    | .next t => runSteps n t
    | .fault r => .fault r
    | .refused r => .refused r

end Sys2Proof.Machine
end

