-- ==== Sys2Proof/Certificates/Slice0/Obligations.lean ====
section
/-! DEFINITION. The statements for the provers. A result written as `exec i s = .next { s with … }` is that operation's
completion and its whole frame: every field it does not name keeps its value. -/

open Sys2Proof Sys2Proof.Machine

/-! ### Hunting for the preamble

In this part and the next two `fetchInstr d b` is the row that the opcode map of R80 selects for the byte. -/

/-- R102, R103: in `WaitPreamble1` the byte AA moves on to `WaitPreamble2`, every other byte changes nothing; a stream of
any length without AA leaves a decoder in its reset state. -/
def Obligations.WaitPreamble1SyncsOrSkips : Prop :=
  (∀ (s : State) (d : DecoderState), s.engine = some d → d.state = .waitPreamble1 →
    (fetchInstr d 0xAA#8 = .next .wp1Sync ∧
      exec .wp1Sync s = .next { s with engine := some { d with state := .waitPreamble2 } }) ∧
    ∀ b : Byte, b ≠ 0xAA#8 → fetchInstr d b = .next (.wp1Skip b) ∧ exec (.wp1Skip b) s = .next s) ∧
  ∀ (s : State) (chunk : List Byte), s.engine = some DecoderState.reset → (∀ b ∈ chunk, b ≠ 0xAA#8) →
    exec (.onbytes chunk) s = .next s

/-- R104, R105, R106: in `WaitPreamble2` the byte 55 locks, AA holds, and every other byte goes back to `WaitPreamble1`;
any run of one or more AA followed by 55 locks. -/
def Obligations.WaitPreamble2LocksHoldsOrMisses : Prop :=
  (∀ (s : State) (d : DecoderState), s.engine = some d → d.state = .waitPreamble2 →
    (fetchInstr d 0x55#8 = .next .wp2Lock ∧
      exec .wp2Lock s = .next { s with engine := some { d with state := .readVersion } }) ∧
    (fetchInstr d 0xAA#8 = .next .wp2Hold ∧ exec .wp2Hold s = .next s) ∧
    ∀ b : Byte, b ≠ 0x55#8 → b ≠ 0xAA#8 → fetchInstr d b = .next (.wp2Miss b) ∧
      exec (.wp2Miss b) s = .next { s with engine := some { d with state := .waitPreamble1 } }) ∧
  ∀ (s : State) (n : Nat), s.engine = some DecoderState.reset →
    exec (.onbytes (List.replicate (n + 1) 0xAA#8 ++ [0x55#8])) s =
      .next { s with engine := some { DecoderState.reset with state := .readVersion } }

/-! ### Header, length, payload, checksum -/

/-- R107, R108, R109: the three header states capture any byte; `ACC` is assigned by the first and added to, modulo
256, by the others. -/
def Obligations.HeaderBytesAreCaptured : Prop :=
  ∀ (s : State) (d : DecoderState) (b : Byte), s.engine = some d →
    (d.state = .readVersion → fetchInstr d b = .next (.rdver b) ∧
      exec (.rdver b) s = .next { s with engine := some { d with version := b, acc := b, state := .readType } }) ∧
    (d.state = .readType → fetchInstr d b = .next (.rdtype b) ∧
      exec (.rdtype b) s = .next { s with
        engine := some { d with typ := b, acc := BitVec.ofNat 8 ((d.acc.toNat + b.toNat) % 256), state := .readId } }) ∧
    (d.state = .readId → fetchInstr d b = .next (.rdid b) ∧
      exec (.rdid b) s = .next { s with
        engine := some { d with id := b, acc := BitVec.ofNat 8 ((d.acc.toNat + b.toNat) % 256), state := .readLen } })

/-- R110, R112: a length of 0 goes straight to the checksum with `ACC` unchanged (there `CUR` is 0, `PBUF` empty, and the
expected checksum the sum of the three header bytes); a length of 1 to 128 starts the payload with the cursor at 0. -/
def Obligations.LegalLengthsAreAccepted : Prop :=
  ∀ (s : State) (d : DecoderState) (b : Byte), s.engine = some d → d.state = .readLen →
    (fetchInstr d 0#8 = .next .rdlenZero ∧
      exec .rdlenZero s = .next { s with engine := some { d with len := 0#8, state := .readChecksum } }) ∧
    (d.Inv → d.cur = 0#8 ∧ d.pbuf = [] ∧
      d.acc.toNat = (d.version.toNat + d.typ.toNat + d.id.toNat) % 256) ∧
    (1 ≤ b.toNat → b.toNat ≤ 128 → fetchInstr d b = .next (.rdlenData b) ∧
      exec (.rdlenData b) s = .next { s with
        engine := some { d with
          len := b
          acc := BitVec.ofNat 8 ((d.acc.toNat + b.toNat) % 256)
          cur := 0#8
          pbuf := []
          state := .readPayload } })

/-- R111: a length of 129 to 255 abandons the frame: every register is cleared and nothing is emitted. -/
def Obligations.OversizedLengthAbandonsSilently : Prop :=
  ∀ (s : State) (d : DecoderState) (b : Byte), s.engine = some d → d.state = .readLen → 129 ≤ b.toNat →
    fetchInstr d b = .next (.rdlenOver b) ∧
    exec (.rdlenOver b) s = .next { s with
      engine := some ⟨.waitPreamble1, 0#8, 0#8, 0#8, 0#8, 0#8, 0#8, []⟩ }

/-- R113, R114: a payload byte is stored at the cursor, the cursor and `ACC` advance, and the last byte moves on to the
checksum; every other index of `PBUF` reads as before. -/
def Obligations.PayloadBytesAreStored : Prop :=
  ∀ (s : State) (d : DecoderState) (b : Byte), s.engine = some d → d.state = .readPayload → d.cur.toNat < 128 →
    ∃ m : Memory, (∀ a : Nat, m.read a = if a = d.cur.toNat then some b else d.pbuf.read a) ∧
      (d.cur.toNat + 1 < d.len.toNat → fetchInstr d b = .next (.rdpayMore b) ∧
        exec (.rdpayMore b) s = .next { s with
          engine := some { d with
            pbuf := m
            cur := BitVec.ofNat 8 (d.cur.toNat + 1)
            acc := BitVec.ofNat 8 ((d.acc.toNat + b.toNat) % 256) } }) ∧
      (d.cur.toNat + 1 = d.len.toNat → fetchInstr d b = .next (.rdpayLast b) ∧
        exec (.rdpayLast b) s = .next { s with
          engine := some { d with
            pbuf := m
            cur := BitVec.ofNat 8 (d.cur.toNat + 1)
            acc := BitVec.ofNat 8 ((d.acc.toNat + b.toNat) % 256)
            state := .readChecksum } })

/-- R115: a matching checksum byte emits exactly one frame, its fields the register values before the clearing and its
payload the `LEN` bytes of `PBUF` in index order; the frame's checksum is the sum of its fields. -/
def Obligations.MatchingChecksumEmitsTheFrame : Prop :=
  ∀ (s : State) (d : DecoderState) (b : Byte), s.engine = some d → d.Inv → d.state = .readChecksum → b = d.acc →
    ∃ payload : List Byte, payload.length = d.len.toNat ∧
      (∀ k : Nat, k < d.len.toNat → d.pbuf.read k = payload[k]?) ∧
      b.toNat = (d.version.toNat + d.typ.toNat + d.id.toNat + d.len.toNat + (payload.map BitVec.toNat).sum) % 256 ∧
      fetchInstr d b = .next (.rdcsumOk b) ∧
      exec (.rdcsumOk b) s = .next { s with
        engine := some ⟨.waitPreamble1, 0#8, 0#8, 0#8, 0#8, 0#8, 0#8, []⟩
        events := s.events ++ [.decode (.frameReady ⟨d.version, d.typ, d.id, d.len, payload, b⟩)] }

/-- R116: a checksum byte that differs drops the frame: `ChecksumMismatch` and the cleared decoder. -/
def Obligations.WrongChecksumDropsTheFrame : Prop :=
  ∀ (s : State) (d : DecoderState) (b : Byte), s.engine = some d → d.state = .readChecksum → b ≠ d.acc →
    fetchInstr d b = .next (.rdcsumBad b) ∧
    exec (.rdcsumBad b) s = .next { s with
      engine := some ⟨.waitPreamble1, 0#8, 0#8, 0#8, 0#8, 0#8, 0#8, []⟩
      events := s.events ++ [.decode .checksumMismatch] }

/-- The fallback of R117, the spec's own reading (D21; log entry 7): from any decoder state the byte is consumed and the
decoder cleared, without an event. -/
def Obligations.FallbackClearsTheDecoder : Prop :=
  ∀ (s : State) (d : DecoderState) (b : Byte), s.engine = some d →
    exec (.badstate b) s = .next { s with engine := some ⟨.waitPreamble1, 0#8, 0#8, 0#8, 0#8, 0#8, 0#8, []⟩ }

/-- R123: the complete transition graph, with the condition of every edge. -/
def Obligations.TransitionGraphIsComplete : Prop :=
  ∀ (i : Instr) (b : Byte) (s t : State) (d d' : DecoderState), i.rxByte = some b → s.engine = some d →
    exec i s = .next t → t.engine = some d' →
    d'.state = match d.state with
      | .waitPreamble1 => if b = 0xAA#8 then .waitPreamble2 else .waitPreamble1
      | .waitPreamble2 =>
        if b = 0x55#8 then .readVersion else if b = 0xAA#8 then .waitPreamble2 else .waitPreamble1
      | .readVersion => .readType
      | .readType => .readId
      | .readId => .readLen
      | .readLen => if b = 0#8 then .readChecksum else if 128 < b.toNat then .waitPreamble1 else .readPayload
      | .readPayload => if d.cur.toNat + 1 = d.len.toNat then .readChecksum else .readPayload
      | .readChecksum => .waitPreamble1

/-- R119: for every decoder state the invariants allow and every byte, exactly one of the fifteen rows applies. -/
def Obligations.ExactlyOneTransitionApplies : Prop :=
  ∀ (s : State) (d : DecoderState) (b : Byte), s.engine = some d → d.Inv →
    ∃ i : Instr, (i.rxByte = some b ∧ ∃ t, exec i s = .next t) ∧
      ∀ j : Instr, j.rxByte = some b → (∃ t, exec j s = .next t) → j = i

/-- One byte step raises at most one decode event, and only in `ReadChecksum` (R208). -/
def Obligations.OnlyChecksumStepsRaiseEvents : Prop :=
  ∀ (i : Instr) (b : Byte) (s t : State) (d : DecoderState), i.rxByte = some b → s.engine = some d →
    exec i s = .next t →
    (d.state ≠ .readChecksum → t.events = s.events) ∧
    (d.state = .readChecksum → ∃ e : DecodeEvent, t.events = s.events ++ [.decode e])

/-! ### The payload buffer -/

/-- The two accesses of R55 and R56: a write at an index of 0 to 127 succeeds, keeps the canonical form, and a read returns the byte most
recently written at its index. -/
def Obligations.PayloadBufferReadsBackWrites : Prop :=
  ∀ (m : Memory) (k : Nat) (v : Byte), k ≤ 127 →
    ∃ m' : Memory, memWrite m k v = .ok m' ∧ memRead m' k = .ok v ∧
      (∀ a : Nat, a ≠ k → memRead m' a = memRead m a) ∧ (m.wf = true → m'.wf = true)

/-! ### Feeding -/

/-- FEED and ONBYTES complete on every connection the invariant allows: the decoder takes the chunk's byte steps, the
events are raised, and ONBYTES dispatches them in order (R118, R183). -/
def Obligations.FeedAndOnbytesComplete : Prop :=
  ∀ (s : State) (d : DecoderState) (chunk : List Byte), s.engine = some d → d.Inv →
    ∃ (d' : DecoderState) (evs : List DecodeEvent), feed d chunk = .next (d', evs) ∧ d'.Inv ∧
      evs.length ≤ chunk.length ∧
      exec (.feed chunk) s = .next { s with engine := some d', events := s.events ++ evs.map Event.decode } ∧
      exec (.onbytes chunk) s =
        .next (evs.foldl dispatchEvent { s with engine := some d', events := s.events ++ evs.map Event.decode })

/-- R120: cutting a chunk in two changes nothing, for the bare decoder and for the engine. -/
def Obligations.ChunkBoundariesDoNotMatter : Prop :=
  ∀ (s s1 : State) (a c : List Byte),
    (exec (.feed a) s = .next s1 → exec (.feed (a ++ c)) s = exec (.feed c) s1) ∧
    (exec (.onbytes a) s = .next s1 → exec (.onbytes (a ++ c)) s = exec (.onbytes c) s1)

/-- After the first event of a chunk every further one needs seven more bytes (R213, and the bound of R118). -/
def Obligations.EventsAreSevenBytesApart : Prop :=
  ∀ (d d' : DecoderState) (chunk : List Byte) (evs : List DecodeEvent), d.Inv → feed d chunk = .next (d', evs) →
    chunk ≠ [] → evs.length ≤ 1 + (chunk.length - 1) / 7

/-- One ONBYTES and its bytes delivered one by one on the RX port end in the same machine state
(R183's note; that a byte can be delivered alone on the RX port is R10 a). -/
def Obligations.OnbytesIsItsBytesOneByOne : Prop :=
  ∀ (s : State) (chunk : List Byte) (rest : List Input), s.Inv → s.engine ≠ none →
    s.input = chunk.map Input.byte ++ rest →
    runSteps chunk.length s = exec (.onbytes chunk) { s with input := rest }

/-! ### Encoder, codec, engine -/

/-- R141: the frame's bytes, with the checksum as a sum of values modulo 256. -/
def Obligations.EncodeBuildsTheFrame : Prop :=
  ∀ (s : State) (typ id : Int) (p : List Byte), p.length ≤ 128 →
    exec (.encode typ id p) s = .next { s with outputs := s.outputs ++ [.ret (.frameBytes
      ([0xAA#8, 0x55#8, 0x01#8, BitVec.ofNat 8 (typ % 256).toNat, BitVec.ofNat 8 (id % 256).toNat,
        BitVec.ofNat 8 p.length] ++ p ++
        [BitVec.ofNat 8 ((1 + (typ % 256).toNat + (id % 256).toNat + p.length + (p.map BitVec.toNat).sum) % 256)]))] }

/-- Only the low byte of `type` and `id` counts, for every integer (R142; for negative ones the spec's decision D8). -/
def Obligations.TypeAndIdAreTruncated : Prop :=
  ∀ (s : State) (typ id j k : Int) (p : List Byte) (avail : Bool),
    exec (.encode (typ + 256 * j) (id + 256 * k) p) s = exec (.encode typ id p) s ∧
    exec (.sendcmd (typ + 256 * j) (id + 256 * k) p avail) s = exec (.sendcmd typ id p avail) s

/-- R144: the result is seven bytes longer than the payload. -/
def Obligations.EncodedLengthIsSevenMore : Prop :=
  ∀ (s t : State) (typ id : Int) (p : List Byte), exec (.encode typ id p) s = .next t →
    ∃ bytes : List Byte, t.outputs = s.outputs ++ [.ret (.frameBytes bytes)] ∧ bytes.length = 7 + p.length ∧
      7 ≤ bytes.length ∧ bytes.length ≤ 135

/-- A payload of more than 128 bytes is refused, by the encoder and by the command that uses it (R143, the spec's
decision D9). -/
def Obligations.LongPayloadIsRefused : Prop :=
  ∀ (s : State) (typ id : Int) (p : List Byte) (avail : Bool), 128 < p.length →
    exec (.encode typ id p) s = .refused .payloadTooLong ∧
    exec (.sendcmd typ id p avail) s = .refused .payloadTooLong

/-- `cksum` (R140): the sum of the values modulo 256; order does not matter; one changed byte always shows. -/
def Obligations.ChecksumProperties : Prop :=
  (∀ s : List Byte, (cksum s).toNat = (s.map BitVec.toNat).sum % 256) ∧
  (∀ s t : List Byte, (cksum (s ++ t)).toNat = ((cksum s).toNat + (cksum t).toNat) % 256) ∧
  (∀ s t : List Byte, s.Perm t → cksum s = cksum t) ∧
  (∀ (s : List Byte) (k : Nat) (v : Byte), k < s.length → s[k]? ≠ some v → cksum (s.set k v) ≠ cksum s)

/-- The three values of any payload of six bytes or more (R160, R163, R164, R169), for both layouts of R162. -/
def Obligations.SensdecReadsTheFields : Prop :=
  ∀ (s : State) (b0 b1 b2 b3 b4 st : Byte) (rest : List Byte),
    ∃ v : SensorValues,
      exec (.sensdec ((match s.params.sensorLayout with
          | .statusLast => [b0, b1, b2, b3, b4, st]
          | .statusFirst => [st, b0, b1, b2, b3, b4]) ++ rest)) s =
        .next { s with outputs := s.outputs ++ [.ret (.sensorValues v)] } ∧
      (v.hum100.toNat : Int) =
        rnd s.params.tieRule ((b0.toNat * 4096 + b1.toNat * 16 + b2.toNat / 16 : Nat) * 10000) (2 ^ 20) ∧
      v.temp100.toInt =
        rnd s.params.tieRule
          ((b2.toNat % 16 * 65536 + b3.toNat * 256 + b4.toNat : Nat) * 20000 - 5000 * 2 ^ 20) (2 ^ 20) ∧
      v.status = st

/-- `InsufficientPayload` for fewer than six bytes (R161): no value is produced. That the caller is told by a return
value beside the raised event is the model's form of R200's last column (log entry 8). -/
def Obligations.ShortSensorPayloadIsReported : Prop :=
  ∀ (s : State) (p : List Byte), p.length < 6 →
    exec (.sensdec p) s = .next { s with
      events := s.events ++ [.insufficientPayload]
      outputs := s.outputs ++ [.ret .insufficientPayload] }

/-- R171: for six bytes or more the result is a function of the first six (and of the parameters); the bytes after them
are ignored, and nothing else is read or written. -/
def Obligations.SensdecDependsOnSixBytes : Prop :=
  ∃ f : Params → Byte → Byte → Byte → Byte → Byte → Byte → SensorValues,
    ∀ (s : State) (b0 b1 b2 b3 b4 b5 : Byte) (rest : List Byte),
      exec (.sensdec ([b0, b1, b2, b3, b4, b5] ++ rest)) s =
        .next { s with outputs := s.outputs ++ [.ret (.sensorValues (f s.params b0 b1 b2 b3 b4 b5))] }

/-- Rounding (R166, D13): the nearest integer, and the tie rules at an exact half. -/
def Obligations.RoundingIsToNearest : Prop :=
  ∀ (tie : TieRule) (n : Int) (d : Nat), 0 < d →
    (2 * (rnd tie n d * d - n) ≤ d ∧ -(d : Int) ≤ 2 * (rnd tie n d * d - n)) ∧
    (2 * (n % d) = d →
      rnd .halfUp n d = n / d + 1 ∧
      rnd .halfAway n d = (if 0 < n then n / d + 1 else n / d) ∧
      rnd .halfEven n d % 2 = 0 ∧ (rnd .halfEven n d = n / d ∨ rnd .halfEven n d = n / d + 1))

/-- The closed forms under `half_up` (R167, R168). -/
def Obligations.HalfUpClosedForms : Prop :=
  ∀ raw : Raw20,
    (hum100 .halfUp raw).toNat = (raw.toNat * 625 + 32768) >>> 16 ∧
    (temp100 .halfUp raw).toInt = ((raw.toNat * 625 + 16384) >>> 15 : Nat) - 5000

/-- The ranges (R170), where the upper ends are reached, and that both outputs never decrease, under every tie rule. -/
def Obligations.SensorValuesStayInRange : Prop :=
  ∀ (tie : TieRule) (raw raw' : Raw20),
    (hum100 tie raw).toNat ≤ 10000 ∧
    -5000 ≤ (temp100 tie raw).toInt ∧ (temp100 tie raw).toInt ≤ 15000 ∧
    ((hum100 tie raw).toNat = 10000 ↔ 0xFFFCC ≤ raw.toNat) ∧
    ((temp100 tie raw).toInt = 15000 ↔ 0xFFFE6 ≤ raw.toNat) ∧
    (raw.toNat ≤ raw'.toNat → (hum100 tie raw).toNat ≤ (hum100 tie raw').toNat ∧
      (temp100 tie raw).toInt ≤ (temp100 tie raw').toInt)

/-- Ties (R173): they are exactly the named raw values; away from them the tie rules agree; at the negative ones `half_up`
and `half_away` differ by one hundredth. -/
def Obligations.TieRulesDifferOnlyAtTheTies : Prop :=
  ∀ raw : Raw20,
    (2 * (raw.toNat * 625 % 65536) = 65536 ↔ ∃ k : Nat, k ≤ 15 ∧ raw.toNat = 0x08000 + k * 0x10000) ∧
    (2 * (raw.toNat * 625 % 32768) = 32768 ↔ ∃ k : Nat, k ≤ 31 ∧ raw.toNat = 0x04000 + k * 0x08000) ∧
    ((¬ ∃ k : Nat, raw.toNat = 0x08000 + k * 0x10000) → ∀ t t' : TieRule, hum100 t raw = hum100 t' raw) ∧
    ((¬ ∃ k : Nat, raw.toNat = 0x04000 + k * 0x08000) → ∀ t t' : TieRule, temp100 t raw = temp100 t' raw) ∧
    (∀ k : Nat, k ≤ 7 → raw.toNat = 0x04000 + k * 0x08000 →
      (temp100 .halfUp raw).toInt = (temp100 .halfAway raw).toInt + 1 ∧ (temp100 .halfUp raw).toInt < 0) ∧
    (raw.toNat = 0x08000 → (hum100 .halfUp raw).toNat = 313 ∧ (hum100 .halfAway raw).toNat = 313 ∧
      (hum100 .halfEven raw).toNat = 312) ∧
    (raw.toNat = 0x04000 → (temp100 .halfUp raw).toInt = -4687 ∧ (temp100 .halfAway raw).toInt = -4688 ∧
      (temp100 .halfEven raw).toInt = -4688)

/-- R181, R182: `CONNECT` gives a fresh decoder whatever was there, `TEARDOWN` none; no event, nothing else. -/
def Obligations.ConnectAndTeardown : Prop :=
  ∀ s : State,
    exec .connect s = .next { s with engine := some ⟨.waitPreamble1, 0#8, 0#8, 0#8, 0#8, 0#8, 0#8, []⟩ } ∧
    exec .teardown s = .next { s with engine := none }

/-- What the engine makes of one decode event (R184 to R187, with the spec's decisions D15 to D17 and D19). The timestamp
is any value (log entry 4). -/
def Obligations.DispatchOfDecodeEvents : Prop :=
  ∀ (s : State) (f : Frame), f.valid →
    dispatchEvent s .checksumMismatch = { s with outputs := s.outputs ++ [.checksumMismatch] } ∧
    (f.typ ≠ s.params.sensorType →
      dispatchEvent s (.frameReady f) =
        { s with outputs := s.outputs ++ [.frameReceived f.version f.typ f.id f.len f.payload] }) ∧
    (f.typ = s.params.sensorType → f.len.toNat < 6 →
      dispatchEvent s (.frameReady f) =
        { s with outputs := s.outputs ++
            [.frameReceived f.version f.typ f.id f.len f.payload, .insufficientPayload] }) ∧
    (f.typ = s.params.sensorType → 6 ≤ f.len.toNat →
      ∃ (v : SensorValues) (ts : Time),
        exec (.sensdec f.payload) s = .next { s with outputs := s.outputs ++ [.ret (.sensorValues v)] } ∧
        dispatchEvent s (.frameReady f) =
          { s with
            outputs := s.outputs ++ [.frameReceived f.version f.typ f.id f.len f.payload, .sensorReading v ts]
            draws := s.draws + 1 })

/-- R188: an accepted command appends to TX the whole frame that `ENCODE` gives, a rejected one appends nothing, and the
caller is told which; the command neither reads nor writes the decoder state. -/
def Obligations.SendcmdOffersTheWholeFrame : Prop :=
  ∀ (typ id : Int) (p : List Byte), p.length ≤ 128 →
    ∃ bytes : List Byte, ∀ s : State,
      exec (.encode typ id p) s = .next { s with outputs := s.outputs ++ [.ret (.frameBytes bytes)] } ∧
      exec (.sendcmd typ id p true) s =
        .next { s with tx := s.tx ++ bytes, outputs := s.outputs ++ [.ret .accepted] } ∧
      exec (.sendcmd typ id p false) s = .next { s with outputs := s.outputs ++ [.ret .unavailable] }

/-- Without a connection a delivered chunk has no meaning and is refused (R193, the spec's decision D22); so is a bare
`FEED` (the model's own). -/
def Obligations.OnbytesWithoutConnectionIsRefused : Prop :=
  ∀ (s : State) (chunk : List Byte), s.engine = none →
    exec (.onbytes chunk) s = .refused .noConnection ∧ exec (.feed chunk) s = .refused .noConnection

/-- A command and a chunk commute (R67): the same decoder, the same RX-side events and outputs, the same TX bytes. -/
def Obligations.DirectionsAreIndependent : Prop :=
  ∀ (s a b : State) (chunk : List Byte) (typ id : Int) (p : List Byte) (avail : Bool),
    exec (.onbytes chunk) s = .next a → exec (.sendcmd typ id p avail) s = .next b →
    ∃ a' b' : State, exec (.sendcmd typ id p avail) a = .next a' ∧ exec (.onbytes chunk) b = .next b' ∧
      a'.engine = b'.engine ∧ a'.events = b'.events ∧ a'.tx = b'.tx ∧ a'.draws = b'.draws ∧
      a'.outputs.filter (fun o => !o.isReturn) = b'.outputs.filter (fun o => !o.isReturn) ∧
      a'.outputs.filter Output.isReturn = b'.outputs.filter Output.isReturn

/-! ### Frames -/

/-- What an operation may write, field by field: every other field keeps its value. -/
def Obligations.OperationsKeepTheOtherFields : Prop :=
  ∀ (i : Instr) (s t : State), exec i s = .next t →
    ((∃ b, i.rxByte = some b ∨ i = .badstate b) → t = { s with engine := t.engine, events := t.events }) ∧
    ((∃ c, i = .feed c) → t = { s with engine := t.engine, events := t.events }) ∧
    ((∃ c, i = .onbytes c) →
      t = { s with engine := t.engine, events := t.events, outputs := t.outputs, draws := t.draws }) ∧
    ((∃ ty id p, i = .encode ty id p) → t = { s with outputs := t.outputs }) ∧
    ((∃ p, i = .sensdec p) → t = { s with events := t.events, outputs := t.outputs }) ∧
    ((∃ ty id p a, i = .sendcmd ty id p a) → t = { s with tx := t.tx, outputs := t.outputs }) ∧
    ((i = .connect ∨ i = .teardown) → t = { s with engine := t.engine })

/-- The registers and the `PBUF` bytes a receive step that does not clear leaves unchanged. A payload step stores to the
index `CUR` alone. -/
def Obligations.ReceiveStepsKeepTheOtherRegisters : Prop :=
  ∀ (i : Instr) (s t : State) (d d' : DecoderState), s.engine = some d → d.Inv → exec i s = .next t →
    t.engine = some d' →
    ((i = .wp1Sync ∨ (∃ b, i = .wp1Skip b) ∨ i = .wp2Lock ∨ i = .wp2Hold ∨ ∃ b, i = .wp2Miss b) →
      d'.version = d.version ∧ d'.typ = d.typ ∧ d'.id = d.id ∧ d'.len = d.len ∧ d'.acc = d.acc ∧ d'.cur = d.cur ∧
      ∀ a : Nat, d'.pbuf.read a = d.pbuf.read a) ∧
    ((∃ b, i = .rdver b) →
      d'.typ = d.typ ∧ d'.id = d.id ∧ d'.len = d.len ∧ d'.cur = d.cur ∧
      ∀ a : Nat, d'.pbuf.read a = d.pbuf.read a) ∧
    ((∃ b, i = .rdtype b) →
      d'.version = d.version ∧ d'.id = d.id ∧ d'.len = d.len ∧ d'.cur = d.cur ∧
      ∀ a : Nat, d'.pbuf.read a = d.pbuf.read a) ∧
    ((∃ b, i = .rdid b) →
      d'.version = d.version ∧ d'.typ = d.typ ∧ d'.len = d.len ∧ d'.cur = d.cur ∧
      ∀ a : Nat, d'.pbuf.read a = d.pbuf.read a) ∧
    ((i = .rdlenZero ∨ ∃ b, i = .rdlenData b) →
      d'.version = d.version ∧ d'.typ = d.typ ∧ d'.id = d.id ∧ d'.cur = d.cur ∧
      ∀ a : Nat, d'.pbuf.read a = d.pbuf.read a) ∧
    ((∃ b, i = .rdpayMore b ∨ i = .rdpayLast b) →
      d'.version = d.version ∧ d'.typ = d.typ ∧ d'.id = d.id ∧ d'.len = d.len ∧
      ∀ a : Nat, a ≠ d.cur.toNat → d'.pbuf.read a = d.pbuf.read a)

/-! ### The whole machine -/

/-- The reset state's decoder, register by register (R35, R231); that a reset is `CONNECT` is the spec's decision D22
(R230; log entry 1). That the streams `tx`, `events` and `outputs` are empty at reset is the model's choice (log
entry 2): the spec gives no stream a reset value. -/
def Obligations.ResetValues : Prop :=
  State.reset.engine = some ⟨.waitPreamble1, 0#8, 0#8, 0#8, 0#8, 0#8, 0#8, []⟩ ∧
    State.reset.tx = [] ∧ State.reset.events = [] ∧ State.reset.outputs = [] ∧
    exec .connect State.powerOn = .next State.reset

/-- The reset state and the state before the first connection meet the machine invariant. -/
def Obligations.ResetMeetsTheInvariant : Prop :=
  State.reset.Inv ∧ State.powerOn.Inv

/-- Every step keeps the machine invariant: the decoder's (R25, R27, R28, R36, R122), the frames' (R42), the values'
ranges (R170). -/
def Obligations.StepKeepsTheInvariant : Prop :=
  ∀ s t : State, s.Inv → step s = .next t → t.Inv

/-- Nothing is fatal and nothing is stuck (R214). From every state the invariant allows a step goes on, except for the
host moves without meaning, which it refuses by name: `ONBYTES` without a connection (R193) and a payload of more than
128 bytes (R143) as the spec asks; a lone byte and a bare `FEED` without a connection by the model's choice (log
entry 18). -/
def Obligations.NothingIsFatal : Prop :=
  ∀ s : State, s.Inv →
    (s.refusedMove = none → ∃ t, step s = .next t) ∧
    (∀ r : Refusal, s.refusedMove = some r → step s = .refused r)

/-- A step runs the selected operation: for a byte the row the opcode map selects, followed by the engine's dispatch of
what it raised; for a call that call; with no input nothing. -/
def Obligations.StepRunsTheSelectedOperation : Prop :=
  (∀ s : State, s.input = [] → step s = .next s) ∧
  (∀ (s : State) (c : HostCall) (rest : List Input), s.input = .call c :: rest →
    step s = exec c.instr { s with input := rest }) ∧
  (∀ (s : State) (d : DecoderState) (b : Byte) (rest : List Input) (c : Bool) (i : Instr),
    s.input = .byte b :: rest → s.engine = some d → registerComparison d b = some c →
    decodeWord (selectorWord c d.state b) = .ok i →
    i.wellFormed = true ∧ i.rxByte = some b ∧
    (∀ t, exec i { s with input := rest } = .next t → step s = .next (dispatchRaised { s with input := rest } t)) ∧
    (∀ r, exec i { s with input := rest } = .fault r → step s = .fault r) ∧
    (∀ r, exec i { s with input := rest } = .refused r → step s = .refused r))

/-- A table word that decodes is what the next step fetches once it has been placed (the model's convention, log
entry 5). -/
def Obligations.PlacedWordIsFetched : Prop :=
  ∀ (s : State) (nbits w : Nat) (i : Instr), decodeTableWord nbits w = some i →
    ∃ s1 : State, fetch (s.withFetchWord nbits w) = .next (some i, s1) ∧ s1.input = s.input ∧
      s1.params = s.params ∧ s1.tx = s.tx ∧ s1.events = s.events ∧ s1.outputs = s.outputs ∧ s1.draws = s.draws

/-- The parameters of R9 cannot change during a run (R32, D27). -/
def Obligations.ParametersNeverChange : Prop :=
  ∀ (n : Nat) (s t : State), runSteps n s = .next t → t.params = s.params

/-- TX grows only by the whole frame of an accepted command (R52); events and outputs once emitted are never changed or
taken back (R207), and inputs are consumed one a step (R51). -/
def Obligations.StreamsOnlyGrow : Prop :=
  ∀ s t : State, step s = .next t →
    (t.tx = s.tx ++ match s.input with
      | .call (.sendcmd typ id p true) :: _ => encodeFrame typ id p
      | _ => []) ∧
    (∃ es, t.events = s.events ++ es) ∧ (∃ os, t.outputs = s.outputs ++ os) ∧
    (s.input ≠ [] → ∃ x, s.input = x :: t.input)

/-! ### Encodings -/

/-- Decoding and encoding of selector words are inverse to each other, and every selector is accepted. -/
def Obligations.SelectorEncodingIsABijection : Prop :=
  (∀ (i : Instr) (w : BitVec 16), i.wellFormed = true → encode i = some w → decodeWord w = .ok i) ∧
  (∀ (i : Instr) (w : BitVec 16), decodeWord w = .ok i → i.wellFormed = true ∧ encode i = some w) ∧
  (∀ (c : Bool) (t : StateTag) (b : Byte), (c = true → t = .readPayload ∨ t = .readChecksum) →
    ∃ i : Instr, decodeWord (selectorWord c t b) = .ok i ∧ i.rxByte = some b)

/-- The rows of the opcode map are pairwise disjoint and cover every selector (R80). That no row applies where the
comparison bit is set in a state that tests no register is the model's convention for that bit (log entry 5): R80's
register condition there is none. -/
def Obligations.OpcodeRowsAreDisjointAndCover : Prop :=
  ∀ (c : Bool) (t : StateTag) (b : Byte),
    (opcodeMap.filter (fun r => r.applies (selectorWord c t b))).length =
      if c = true ∧ t ≠ .readPayload ∧ t ≠ .readChecksum then 0 else 1

/-- A few words of the table, written out from R79 and R80. That the word 8000, which has a bit above `SEL`, is rejected
is the model's convention (log entry 5). -/
def Obligations.TableWordsDecode : Prop :=
  decodeTableWord 16 0b00010101010 = some .wp1Sync ∧ decodeTableWord 16 0b00101010101 = some .wp2Lock ∧
  decodeTableWord 16 0b01001111111 = some (.rdver 0x7F#8) ∧ decodeTableWord 16 0b10100000000 = some .rdlenZero ∧
  decodeTableWord 16 0b10110000001 = some (.rdlenOver 0x81#8) ∧
  decodeTableWord 16 0b10110000000 = some (.rdlenData 0x80#8) ∧ decodeTableWord 16 0x8000 = none

/-- R146: the bytes of `ENCODE` fed to a hunting decoder give exactly one `FrameReady`, with version 1, the
low bytes of `type` and `id`, and the same payload, and end in the reset state. -/
def Obligations.EncodedFrameIsDecodedBack : Prop :=
  ∀ (s : State) (d : DecoderState) (typ id : Int) (p : List Byte), s.engine = some d →
    (d = DecoderState.reset ∨ d = { DecoderState.reset with state := .waitPreamble2 }) → p.length ≤ 128 →
    ∃ f : Frame, f.version = 1#8 ∧ (f.typ.toNat : Int) = typ % 256 ∧ (f.id.toNat : Int) = id % 256 ∧
      f.len.toNat = p.length ∧ f.payload = p ∧ (encodeFrame typ id p).getLast? = some f.checksum ∧
      exec (.feed (encodeFrame typ id p)) s = .next { s with
        engine := some DecoderState.reset
        events := s.events ++ [.decode (.frameReady f)] }

/-- Recovery (R121 b): one corrupted payload byte gives a `ChecksumMismatch` and no frame, and the next frame is decoded. -/
def Obligations.CorruptedPayloadByteIsDetected : Prop :=
  ∀ (s : State) (typ id typ2 id2 : Int) (p p2 : List Byte) (k : Nat) (v : Byte),
    s.engine = some DecoderState.reset → p.length ≤ 128 → p2.length ≤ 128 → k < p.length → p[k]? ≠ some v →
    ∃ f : Frame, f.version = 1#8 ∧ (f.typ.toNat : Int) = typ2 % 256 ∧ (f.id.toNat : Int) = id2 % 256 ∧
      f.len.toNat = p2.length ∧ f.payload = p2 ∧ (encodeFrame typ2 id2 p2).getLast? = some f.checksum ∧
      exec (.feed ((encodeFrame typ id p).set (6 + k) v ++ encodeFrame typ2 id2 p2)) s = .next { s with
        engine := some DecoderState.reset
        events := s.events ++ [.decode .checksumMismatch, .decode (.frameReady f)] }
end

