-- ==== Sys2Proof/Laws/Decode.lean ====
section
/-! SUPPORT. What the decoder answers on a selector word, state by state (spec/30_encoding.md R80). -/

namespace Sys2Proof

@[simp] theorem StateTag.ofCode_code (t : StateTag) : StateTag.ofCode t.code = t := by
  cases t <;> rfl

/-- The operation of R80 for a comparison bit, a state and a byte; none where the bit is set in a state that tests no
register. -/
def selected (cond : Bool) (t : StateTag) (b : Byte) : Option Instr :=
  match t with
  | .waitPreamble1 => if cond then none else if b = 0xAA#8 then some .wp1Sync else some (.wp1Skip b)
  | .waitPreamble2 =>
    if cond then none else if b = 0x55#8 then some .wp2Lock else if b = 0xAA#8 then some .wp2Hold else some (.wp2Miss b)
  | .readVersion => if cond then none else some (.rdver b)
  | .readType => if cond then none else some (.rdtype b)
  | .readId => if cond then none else some (.rdid b)
  | .readLen =>
    if cond then none else if b = 0#8 then some .rdlenZero else if 128#8 < b then some (.rdlenOver b)
    else some (.rdlenData b)
  | .readPayload => if cond then some (.rdpayLast b) else some (.rdpayMore b)
  | .readChecksum => if cond then some (.rdcsumOk b) else some (.rdcsumBad b)

/-- The answer of the decoder as an Option. -/
def decoded (w : BitVec 16) : Option Instr :=
  match decodeWord w with
  | .ok i => some i
  | .error _ => none

/-- The decoder answers exactly the row of R80. -/
theorem decoded_selectorWord (cond : Bool) (t : StateTag) (b : Byte) :
    decoded (selectorWord cond t b) = selected cond t b := by
  cases cond <;> cases t <;> revert b <;> decide +kernel

/-- The decoder's answer on a selector word. -/
theorem decodeWord_selectorWord (cond : Bool) (t : StateTag) (b : Byte) (i : Instr)
    (h : selected cond t b = some i) : decodeWord (selectorWord cond t b) = .ok i := by
  have hd := decoded_selectorWord cond t b
  rw [h, decoded] at hd
  cases hw : decodeWord (selectorWord cond t b) with
  | ok j => rw [hw] at hd; simpa using hd
  | error r => rw [hw] at hd; simp at hd

/-- What a row answers carries the selector's byte. -/
theorem selected_rxByte (cond : Bool) (t : StateTag) (b : Byte) (i : Instr) (h : selected cond t b = some i) :
    i.rxByte = some b := by
  cases t <;> cases cond <;> simp only [selected, if_true, if_false, reduceCtorEq, Bool.false_eq_true] at h <;>
    (repeat' split at h) <;> simp_all <;> subst h <;> simp_all [Instr.rxByte]

/-- Every word is the selector word of its fields and its reserved bits. -/
theorem selectorWord_fields (w : BitVec 16) (h : w.extractLsb' 12 4 = 0#4) :
    w = selectorWord (w.getLsbD 11) (StateTag.ofCode (w.extractLsb' 8 3)) (selByte w) := by
  have hcode : (StateTag.ofCode (w.extractLsb' 8 3)).code = w.extractLsb' 8 3 := by
    generalize w.extractLsb' 8 3 = c
    revert c
    decide
  unfold selectorWord selByte
  rw [hcode]
  apply BitVec.eq_of_getLsbD_eq
  intro k hk
  change w.getLsbD k = BitVec.getLsbD (w := 4 + 1 + 3 + 8)
    (0#4 ++ BitVec.ofBool (w.getLsbD 11) ++ w.extractLsb' 8 3 ++ w.extractLsb' 0 8) k
  rw [BitVec.getLsbD_append, BitVec.getLsbD_append, BitVec.getLsbD_append]
  have h12 : ∀ j, j < 4 → w.getLsbD (12 + j) = false := by
    intro j hj
    have := congrArg (fun v => v.getLsbD j) h
    simpa [hj] using this
  have e12 := h12 0 (by omega)
  have e13 := h12 1 (by omega)
  have e14 := h12 2 (by omega)
  have e15 := h12 3 (by omega)
  simp only [Nat.add_zero, Nat.reduceAdd] at e12 e13 e14 e15
  have : k = 0 ∨ k = 1 ∨ k = 2 ∨ k = 3 ∨ k = 4 ∨ k = 5 ∨ k = 6 ∨ k = 7 ∨ k = 8 ∨ k = 9 ∨ k = 10 ∨ k = 11 ∨ k = 12
      ∨ k = 13 ∨ k = 14 ∨ k = 15 := by omega
  rcases this with rfl | rfl | rfl | rfl | rfl | rfl | rfl | rfl | rfl | rfl | rfl | rfl | rfl | rfl | rfl | rfl <;>
    simp [e12, e13, e14, e15, -BitVec.getLsbD_eq_getElem]

end Sys2Proof
end

