-- ==== Sys2Proof/Laws/State.lean ====
section
/-! SUPPORT. One lemma per field per update of State: what each named update leaves and what it writes. -/

namespace Sys2Proof.Machine

@[simp] theorem State.setEngine_engine (s : State) (e : Option DecoderState) : (s.setEngine e).engine = e := rfl
@[simp] theorem State.setEngine_params (s : State) (e : Option DecoderState) : (s.setEngine e).params = s.params := rfl
@[simp] theorem State.setEngine_input (s : State) (e : Option DecoderState) : (s.setEngine e).input = s.input := rfl
@[simp] theorem State.setEngine_tx (s : State) (e : Option DecoderState) : (s.setEngine e).tx = s.tx := rfl
@[simp] theorem State.setEngine_events (s : State) (e : Option DecoderState) : (s.setEngine e).events = s.events := rfl
@[simp] theorem State.setEngine_outputs (s : State) (e : Option DecoderState) : (s.setEngine e).outputs = s.outputs := rfl
@[simp] theorem State.setEngine_draws (s : State) (e : Option DecoderState) : (s.setEngine e).draws = s.draws := rfl

@[simp] theorem State.raise_engine (s : State) (es : List Event) : (s.raise es).engine = s.engine := rfl
@[simp] theorem State.raise_params (s : State) (es : List Event) : (s.raise es).params = s.params := rfl
@[simp] theorem State.raise_input (s : State) (es : List Event) : (s.raise es).input = s.input := rfl
@[simp] theorem State.raise_tx (s : State) (es : List Event) : (s.raise es).tx = s.tx := rfl
@[simp] theorem State.raise_events (s : State) (es : List Event) : (s.raise es).events = s.events ++ es := rfl
@[simp] theorem State.raise_outputs (s : State) (es : List Event) : (s.raise es).outputs = s.outputs := rfl
@[simp] theorem State.raise_draws (s : State) (es : List Event) : (s.raise es).draws = s.draws := rfl

@[simp] theorem State.output_engine (s : State) (os : List Output) : (s.output os).engine = s.engine := rfl
@[simp] theorem State.output_params (s : State) (os : List Output) : (s.output os).params = s.params := rfl
@[simp] theorem State.output_input (s : State) (os : List Output) : (s.output os).input = s.input := rfl
@[simp] theorem State.output_tx (s : State) (os : List Output) : (s.output os).tx = s.tx := rfl
@[simp] theorem State.output_events (s : State) (os : List Output) : (s.output os).events = s.events := rfl
@[simp] theorem State.output_outputs (s : State) (os : List Output) : (s.output os).outputs = s.outputs ++ os := rfl
@[simp] theorem State.output_draws (s : State) (os : List Output) : (s.output os).draws = s.draws := rfl

@[simp] theorem State.transmit_engine (s : State) (bs : List Byte) : (s.transmit bs).engine = s.engine := rfl
@[simp] theorem State.transmit_params (s : State) (bs : List Byte) : (s.transmit bs).params = s.params := rfl
@[simp] theorem State.transmit_input (s : State) (bs : List Byte) : (s.transmit bs).input = s.input := rfl
@[simp] theorem State.transmit_tx (s : State) (bs : List Byte) : (s.transmit bs).tx = s.tx ++ bs := rfl
@[simp] theorem State.transmit_events (s : State) (bs : List Byte) : (s.transmit bs).events = s.events := rfl
@[simp] theorem State.transmit_outputs (s : State) (bs : List Byte) : (s.transmit bs).outputs = s.outputs := rfl
@[simp] theorem State.transmit_draws (s : State) (bs : List Byte) : (s.transmit bs).draws = s.draws := rfl

@[simp] theorem State.setInput_engine (s : State) (is : List Input) : (s.setInput is).engine = s.engine := rfl
@[simp] theorem State.setInput_params (s : State) (is : List Input) : (s.setInput is).params = s.params := rfl
@[simp] theorem State.setInput_input (s : State) (is : List Input) : (s.setInput is).input = is := rfl
@[simp] theorem State.setInput_tx (s : State) (is : List Input) : (s.setInput is).tx = s.tx := rfl
@[simp] theorem State.setInput_events (s : State) (is : List Input) : (s.setInput is).events = s.events := rfl
@[simp] theorem State.setInput_outputs (s : State) (is : List Input) : (s.setInput is).outputs = s.outputs := rfl
@[simp] theorem State.setInput_draws (s : State) (is : List Input) : (s.setInput is).draws = s.draws := rfl

@[simp] theorem State.countDraw_engine (s : State) : (s.countDraw).engine = s.engine := rfl
@[simp] theorem State.countDraw_params (s : State) : (s.countDraw).params = s.params := rfl
@[simp] theorem State.countDraw_input (s : State) : (s.countDraw).input = s.input := rfl
@[simp] theorem State.countDraw_tx (s : State) : (s.countDraw).tx = s.tx := rfl
@[simp] theorem State.countDraw_events (s : State) : (s.countDraw).events = s.events := rfl
@[simp] theorem State.countDraw_outputs (s : State) : (s.countDraw).outputs = s.outputs := rfl
@[simp] theorem State.countDraw_draws (s : State) : (s.countDraw).draws = s.draws + 1 := rfl

/-- Raising nothing changes nothing. -/
@[simp] theorem State.raise_nil (s : State) : s.raise [] = s := by
  cases s
  simp [State.raise]

/-- Writing back the engine's own state changes nothing. -/
theorem State.setEngine_self (s : State) (e : Option DecoderState) (h : s.engine = e) : s.setEngine e = s := by
  subst h
  rfl

/-- Two raises are one. -/
theorem State.raise_raise (s : State) (a b : List Event) : (s.raise a).raise b = s.raise (a ++ b) := by
  simp [State.raise]

/-- Two outputs are one. -/
theorem State.output_output (s : State) (a b : List Output) : (s.output a).output b = s.output (a ++ b) := by
  simp [State.output]

/-- `CLEAR` restores the reset values, whatever the registers held (R101, R35). -/
@[simp] theorem clear_eq (d : DecoderState) : clear d = DecoderState.reset := rfl

end Sys2Proof.Machine
end

