-- ==== Sys2Proof/Laws/Memory.lean ====
section
/-! SUPPORT. The payload buffer: read after write, the canonical form, and the dense buffer of the decoder invariant. -/

namespace Sys2Proof.Machine

/-- A write is read back at its index, and leaves every other index as it was. -/
theorem Memory.read_write (m : Memory) (i : Nat) (v : Byte) (a : Nat) :
    (m.write i v).read a = if a = i then some v else m.read a := by
  induction m with
  | nil => simp [Memory.write, Memory.read]
  | cons c m ih =>
    obtain ⟨k, w⟩ := c
    simp only [Memory.write]
    split
    · simp [Memory.read]
    · split
      · subst_vars
        by_cases h : a = k <;> simp [Memory.read, h]
      · by_cases h : a = k
        · subst h
          have : a ≠ i := fun e => ‹¬ i = a› e.symm
          simp [Memory.read, this]
        · simp [Memory.read, h, ih]

theorem Memory.wfFrom_write (m : Memory) (i : Nat) (v : Byte) (lo : Nat) (hm : m.wfFrom lo = true)
    (hlo : lo ≤ i) (hi : i < Config.maxPayload) : (m.write i v).wfFrom lo = true := by
  induction m generalizing lo with
  | nil => simp [Memory.write, Memory.wfFrom, hlo, hi]
  | cons c m ih =>
    obtain ⟨k, w⟩ := c
    simp only [Memory.wfFrom, Bool.and_eq_true, decide_eq_true_eq] at hm
    obtain ⟨⟨h1, h2⟩, h3⟩ := hm
    simp only [Memory.write]
    split
    · simp only [Memory.wfFrom, Bool.and_eq_true, decide_eq_true_eq]
      exact ⟨⟨hlo, hi⟩, ⟨by omega, h2⟩, h3⟩
    · split
      · subst_vars
        simp only [Memory.wfFrom, Bool.and_eq_true, decide_eq_true_eq]
        exact ⟨⟨hlo, hi⟩, h3⟩
      · simp only [Memory.wfFrom, Bool.and_eq_true, decide_eq_true_eq]
        exact ⟨⟨h1, h2⟩, ih (k + 1) h3 (by omega)⟩

/-- A write within the address space keeps the canonical form. -/
theorem Memory.wf_write (m : Memory) (i : Nat) (v : Byte) (hm : m.wf = true) (hi : i < Config.maxPayload) :
    (m.write i v).wf = true :=
  Memory.wfFrom_write m i v 0 hm (Nat.zero_le i) hi

/-- `CLEAR` empties the buffer, which is canonical. -/
theorem Memory.wf_nil : Memory.wf [] = true := rfl

/-- Writing above every held index appends the cell. -/
theorem Memory.write_append (m : Memory) (i : Nat) (v : Byte) (h : ∀ k ∈ m.map Prod.fst, k < i) :
    m.write i v = m ++ [(i, v)] := by
  induction m with
  | nil => rfl
  | cons c m ih =>
    obtain ⟨k, w⟩ := c
    have hk : k < i := h k (by simp)
    simp only [Memory.write, if_neg (Nat.lt_asymm hk), if_neg (Nat.ne_of_gt hk)]
    rw [ih (fun j hj => h j (by simp only [List.map_cons, List.mem_cons]; exact .inr hj))]
    rfl

/-- The store of R55 at the cursor of a dense buffer: the buffer stays dense and grows by the byte. -/
theorem Memory.write_dense (m : Memory) (n : Nat) (v : Byte) (h : m.map Prod.fst = List.range n) :
    (m.write n v).map Prod.fst = List.range (n + 1) ∧ (m.write n v).bytes = m.bytes ++ [v] := by
  rw [Memory.write_append m n v (by rw [h]; simp)]
  simp [Memory.bytes, h, List.range_succ]

/-- The indices of a memory whose held cells begin at `a` and follow one another. -/
theorem copyOut_consecutive (m : Memory) (a : Nat) (h : m.map Prod.fst = List.range' a m.length)
    (pre : Memory) (hp : ∀ k ∈ pre.map Prod.fst, k < a) :
    copyOut (pre ++ m) a m.length = .ok m.bytes := by
  have hread : ∀ (pre : Memory) (v : Byte) (m : Memory) (a : Nat), (∀ k ∈ pre.map Prod.fst, k < a) →
      Memory.read (pre ++ (a, v) :: m) a = some v := by
    intro pre v m a
    induction pre with
    | nil => intro _; simp [Memory.read]
    | cons c pre ih =>
      obtain ⟨k, w⟩ := c
      intro hk
      have h1 : k < a := hk k (by simp)
      simp only [List.cons_append, Memory.read, if_neg (Nat.ne_of_gt h1)]
      exact ih (fun j hj => hk j (by simp only [List.map_cons, List.mem_cons]; exact .inr hj))
  induction m generalizing a pre with
  | nil => rfl
  | cons c m ih =>
    obtain ⟨k, v⟩ := c
    simp only [List.map_cons, List.length_cons, List.range'_succ, List.cons.injEq] at h
    obtain ⟨rfl, h⟩ := h
    have hstep := ih (k + 1) h (pre ++ [(k, v)]) (by
      intro j hj
      simp only [List.map_append, List.map_cons, List.map_nil, List.mem_append, List.mem_singleton] at hj
      rcases hj with hj | hj
      · exact Nat.lt_succ_of_lt (hp j hj)
      · omega)
    simp only [List.append_assoc, List.singleton_append] at hstep
    simp [copyOut, memRead, hread pre v m k hp, hstep, Memory.bytes]

/-- The copy-out of R56 from a dense buffer answers its bytes. -/
theorem copyOut_dense (m : Memory) (n : Nat) (h : m.map Prod.fst = List.range n) :
    copyOut m 0 n = .ok m.bytes := by
  have hl : m.length = n := by simpa using congrArg List.length h
  subst hl
  exact copyOut_consecutive m 0 (by rw [h, List.range_eq_range']) [] (by simp)

/-- A dense buffer is canonical when it fits the address space. -/
theorem Memory.wf_of_dense (m : Memory) (n : Nat) (h : m.map Prod.fst = List.range n) (hn : n ≤ Config.maxPayload) :
    m.wf = true := by
  have key : ∀ (m : Memory) (a : Nat), m.map Prod.fst = List.range' a m.length →
      a + m.length ≤ Config.maxPayload → m.wfFrom a = true := by
    intro m
    induction m with
    | nil => intro _ _ _; rfl
    | cons c m ih =>
      obtain ⟨k, v⟩ := c
      intro a h hl
      simp only [List.map_cons, List.length_cons, List.range'_succ, List.cons.injEq] at h hl
      obtain ⟨rfl, h⟩ := h
      simp only [Memory.wfFrom, Bool.and_eq_true, decide_eq_true_eq]
      exact ⟨⟨Nat.le_refl k, by omega⟩, ih (k + 1) h (by omega)⟩
  have hl : m.length = n := by simpa using congrArg List.length h
  subst hl
  exact key m 0 (by rw [h, List.range_eq_range']) (by omega)

end Sys2Proof.Machine
end

