-- ==== Sys2Proof/Laws/Receive.lean ====
section
/-! SUPPORT. The byte step, state by state (spec/40_frame_decoder.md R100 to R116), and the operations of the receive
rows as runs of one decoder transition. -/

namespace Sys2Proof.Machine

/-- The opcode map's answer where the register comparison has one. -/
theorem fetchInstr_selected (d : DecoderState) (b : Byte) (c : Bool) (i : Instr)
    (hc : registerComparison d b = some c) (hi : selected c d.state b = some i) : fetchInstr d b = .next i := by
  simp [fetchInstr, hc, decodeWord_selectorWord c d.state b i hi]

/-- What a fetched receive step is: the selector's row, carrying the received byte. -/
theorem fetchInstr_next (d : DecoderState) (b : Byte) (i : Instr) (h : fetchInstr d b = .next i) :
    ∃ c, registerComparison d b = some c ∧ selected c d.state b = some i := by
  unfold fetchInstr at h
  cases hc : registerComparison d b with
  | none => simp [hc] at h
  | some c =>
    refine ⟨c, rfl, ?_⟩
    rw [← decoded_selectorWord, decoded]
    simp only [hc] at h
    cases hw : decodeWord (selectorWord c d.state b) with
    | ok j => simp [hw] at h; simp [h]
    | error r => simp [hw] at h

theorem lt_iff_128 (b : Byte) : (128#8 < b) ↔ Config.maxPayload < b.toNat := by
  rw [BitVec.lt_def]
  rfl

/-- In `ReadLen` the three cases exclude one another (R208). -/
theorem one_le_of_ne_zero (b : Byte) (h : b ≠ 0#8) : 1 ≤ b.toNat := by
  rcases Nat.eq_zero_or_pos b.toNat with hz | hp
  · exact absurd (BitVec.eq_of_toNat_eq (by simpa using hz)) h
  · exact hp

/-- The transition of a receive row, spelled out for two rows; the lemmas below use the same equations. -/
theorem transition_rows (d : DecoderState) (b : Byte) :
    transition .wp1Sync d = wp1Sync d ∧ transition (.wp1Skip b) d = wp1Skip b d := by
  simp [transition]

/-- In a state that tests no register the comparison bit is clear, and the row is the state's. -/
theorem registerComparison_readVersion (d : DecoderState) (b : Byte) (h : d.state = .readVersion) :
    registerComparison d b = some false ∧ selected false d.state b = some (.rdver b) := by
  simp [registerComparison, selected, h]

theorem byteStep_waitPreamble1 (d : DecoderState) (b : Byte) (h : d.state = .waitPreamble1) :
    byteStep d b = .next (if b = 0xAA#8 then { d with state := .waitPreamble2 } else d, none) := by
  by_cases hb : b = 0xAA#8
  · subst hb
    rw [byteStep, fetchInstr_selected d _ false .wp1Sync (by simp [registerComparison, h]) (by simp [selected, h])]
    simp [transition, wp1Sync, h]
  · rw [byteStep, fetchInstr_selected d _ false (.wp1Skip b) (by simp [registerComparison, h]) (by simp [selected, h, hb])]
    simp [transition, wp1Skip, h, hb, isPreamble1]

theorem byteStep_waitPreamble2 (d : DecoderState) (b : Byte) (h : d.state = .waitPreamble2) :
    byteStep d b = .next (if b = 0x55#8 then { d with state := .readVersion }
      else if b = 0xAA#8 then d else { d with state := .waitPreamble1 }, none) := by
  by_cases h2 : b = 0x55#8
  · subst h2
    rw [byteStep, fetchInstr_selected d _ false .wp2Lock (by simp [registerComparison, h]) (by simp [selected, h])]
    simp [transition, wp2Lock, h]
  · by_cases h1 : b = 0xAA#8
    · subst h1
      rw [byteStep, fetchInstr_selected d _ false .wp2Hold (by simp [registerComparison, h]) (by simp [selected, h])]
      simp [transition, wp2Hold, h]
    · rw [byteStep, fetchInstr_selected d _ false (.wp2Miss b) (by simp [registerComparison, h])
        (by simp [selected, h, h1, h2])]
      simp [transition, wp2Miss, h, h1, h2, isPreamble1, isPreamble2]

theorem byteStep_readVersion (d : DecoderState) (b : Byte) (h : d.state = .readVersion) :
    byteStep d b = .next ({ d with version := b, acc := b, state := .readType }, none) := by
  rw [byteStep, fetchInstr_selected d _ false (.rdver b) (by simp [registerComparison, h]) (by simp [selected, h])]
  simp [transition, rdver, h]

theorem byteStep_readType (d : DecoderState) (b : Byte) (h : d.state = .readType) :
    byteStep d b = .next ({ d with typ := b, acc := d.acc + b, state := .readId }, none) := by
  rw [byteStep, fetchInstr_selected d _ false (.rdtype b) (by simp [registerComparison, h]) (by simp [selected, h])]
  simp [transition, rdtype, h, accumulate]

theorem byteStep_readId (d : DecoderState) (b : Byte) (h : d.state = .readId) :
    byteStep d b = .next ({ d with id := b, acc := d.acc + b, state := .readLen }, none) := by
  rw [byteStep, fetchInstr_selected d _ false (.rdid b) (by simp [registerComparison, h]) (by simp [selected, h])]
  simp [transition, rdid, h, accumulate]

theorem byteStep_readLen (d : DecoderState) (b : Byte) (h : d.state = .readLen) :
    byteStep d b = .next (if b = 0#8 then { d with len := 0, state := .readChecksum }
      else if Config.maxPayload < b.toNat then DecoderState.reset
      else { d with len := b, acc := d.acc + b, cur := 0, pbuf := [], state := .readPayload }, none) := by
  by_cases h0 : b = 0#8
  · subst h0
    rw [byteStep, fetchInstr_selected d _ false .rdlenZero (by simp [registerComparison, h]) (by simp [selected, h])]
    simp [transition, rdlenZero, h, accumulate]
  · by_cases hov : Config.maxPayload < b.toNat
    · rw [byteStep, fetchInstr_selected d _ false (.rdlenOver b) (by simp [registerComparison, h])
        (by rw [h, selected, if_neg Bool.false_ne_true, if_neg h0, if_pos ((lt_iff_128 b).2 hov)])]
      rw [if_neg h0, if_pos hov]
      simp [transition, rdlenOver, h, lengthOver, hov]
    · rw [byteStep, fetchInstr_selected d _ false (.rdlenData b) (by simp [registerComparison, h])
        (by rw [h, selected, if_neg Bool.false_ne_true, if_neg h0, if_neg (fun hc => hov ((lt_iff_128 b).1 hc))])]
      rw [if_neg h0, if_neg hov]
      have hd : lengthData b = true := by
        simp only [lengthData, decide_eq_true_eq]
        exact ⟨one_le_of_ne_zero b h0, Nat.le_of_not_lt hov⟩
      simp [transition, rdlenData, h, hd, accumulate]

theorem byteStep_readPayload (d : DecoderState) (b : Byte) (h : d.state = .readPayload) :
    byteStep d b = if payloadMore d then storePayloadByte b .readPayload d
      else if payloadLast d then storePayloadByte b .readChecksum d else .fault .noTransition := by
  by_cases hm : payloadMore d
  · rw [byteStep, fetchInstr_selected d _ false (.rdpayMore b) (by simp [registerComparison, h, hm]) (by simp [selected, h])]
    simp [transition, rdpayMore, h, hm]
  · by_cases hl : payloadLast d
    · rw [byteStep, fetchInstr_selected d _ true (.rdpayLast b) (by simp [registerComparison, h, hm, hl])
        (by simp [selected, h])]
      simp [transition, rdpayLast, h, hm, hl]
    · simp [byteStep, fetchInstr, registerComparison, h, hm, hl]

theorem byteStep_readChecksum_equal (d : DecoderState) (b : Byte) (f : Frame) (h : d.state = .readChecksum)
    (hb : b = d.acc) (hf : captureFrame d b = .ok f) :
    byteStep d b = .next (DecoderState.reset, some (.frameReady f)) := by
  rw [byteStep, fetchInstr_selected d _ true (.rdcsumOk b) (by simp [registerComparison, h, hb, checksumEqual])
    (by simp [selected, h])]
  simp [transition, rdcsumOk, h, checksumEqual, hf, ← hb]

theorem byteStep_readChecksum_differs (d : DecoderState) (b : Byte) (h : d.state = .readChecksum) (hb : b ≠ d.acc) :
    byteStep d b = .next (DecoderState.reset, some .checksumMismatch) := by
  rw [byteStep, fetchInstr_selected d _ false (.rdcsumBad b) (by simp [registerComparison, h, hb, checksumEqual])
    (by simp [selected, h])]
  simp [transition, rdcsumBad, h, hb, checksumEqual]

/-- The shared operation of every receive row: if it goes on, the connection's decoder has made the transition, its
event has been raised, and nothing else has changed. -/
theorem rxApply_next (f : DecoderState → RxResult) (s t : State) (h : rxApply f s = .next t) :
    ∃ d d' ev, s.engine = some d ∧ f d = .next (d', ev) ∧
      t = (s.setEngine (some d')).raise (ev.toList.map Event.decode) := by
  unfold rxApply at h
  cases he : s.engine with
  | none => simp [he] at h
  | some d =>
    simp only [he] at h
    cases hf : f d with
    | fault r => simp [hf] at h
    | refused r => simp [hf] at h
    | next p =>
      obtain ⟨d', ev⟩ := p
      simp only [hf, Host.Outcome.next.injEq] at h
      exact ⟨d, d', ev, rfl, hf, h.symm⟩

/-- A receive row's meaning is its decoder transition on the connection. -/
theorem exec_rx (i : Instr) (s : State) (b : Byte) (h : i.rxByte = some b) :
    exec i s = rxApply (transition i) s := by
  cases i <;> first | rfl | (simp [Instr.rxByte] at h)

/-- The byte step runs the fetched row. -/
theorem byteStep_fetched (d : DecoderState) (b : Byte) (i : Instr) (h : fetchInstr d b = .next i) :
    byteStep d b = transition i d := by
  simp [byteStep, h]

/-- Storing a payload byte within the address space. -/
theorem storePayloadByte_next (b : Byte) (next : StateTag) (d : DecoderState) (h : d.cur.toNat < Config.maxPayload) :
    storePayloadByte b next d = .next
      ({ d with pbuf := d.pbuf.write d.cur.toNat b, cur := d.cur + 1, acc := d.acc + b, state := next }, none) := by
  simp [storePayloadByte, memWrite, h, accumulate]

/-- The frame of R115 from a dense buffer of `LEN` bytes. -/
theorem captureFrame_dense (d : DecoderState) (b : Byte) (h : d.pbuf.map Prod.fst = List.range d.len.toNat) :
    captureFrame d b = .ok ⟨d.version, d.typ, d.id, d.len, d.pbuf.bytes, b⟩ := by
  simp [captureFrame, copyOut_dense d.pbuf d.len.toNat h]

end Sys2Proof.Machine
end

