-- ==== Sys2Proof/Laws/Feeding.lean ====
section
/-! SUPPORT. Feeding a chunk: the recursion of spec/40_frame_decoder.md R118, cut at any byte (R120). -/

namespace Sys2Proof.Machine

@[simp] theorem feed_nil (d : DecoderState) : feed d [] = .next (d, []) := rfl

/-- One byte step, then the rest. -/
theorem feed_cons (d d1 : DecoderState) (b : Byte) (rest : List Byte) (ev : Option DecodeEvent)
    (h : byteStep d b = .next (d1, ev)) :
    feed d (b :: rest) = match feed d1 rest with
      | .fault r => .fault r
      | .refused r => .refused r
      | .next (d2, evs) => .next (d2, ev.toList ++ evs) := by
  cases hr : feed d1 rest <;> simp [feed, h, hr]

/-- A silent byte step adds no event. -/
theorem feed_cons_silent (d d1 : DecoderState) (b : Byte) (rest : List Byte)
    (h : byteStep d b = .next (d1, none)) : feed d (b :: rest) = feed d1 rest := by
  rw [feed_cons d d1 b rest none h]
  cases feed d1 rest with
  | next p => simp
  | fault r => rfl
  | refused r => rfl

/-- What a feed that goes on has done: the first byte step, then the feed of the rest. -/
theorem feed_cons_next (d d2 : DecoderState) (b : Byte) (rest : List Byte) (all : List DecodeEvent)
    (h : feed d (b :: rest) = .next (d2, all)) :
    ∃ d1 ev evs, byteStep d b = .next (d1, ev) ∧ feed d1 rest = .next (d2, evs) ∧ all = ev.toList ++ evs := by
  simp only [feed] at h
  cases hb : byteStep d b with
  | fault r => simp [hb] at h
  | refused r => simp [hb] at h
  | next p =>
    obtain ⟨d1, ev⟩ := p
    simp only [hb] at h
    cases hr : feed d1 rest with
    | fault r => simp [hr] at h
    | refused r => simp [hr] at h
    | next q =>
      obtain ⟨d3, evs⟩ := q
      simp only [hr, Host.Outcome.next.injEq, Prod.mk.injEq] at h
      exact ⟨d1, ev, evs, rfl, by rw [hr, h.1], h.2.symm⟩

/-- A feed cut in two: the second part starts where the first ended. -/
theorem feed_append (d d1 : DecoderState) (a c : List Byte) (evs : List DecodeEvent) (h : feed d a = .next (d1, evs)) :
    feed d (a ++ c) = match feed d1 c with
      | .fault r => .fault r
      | .refused r => .refused r
      | .next (d2, evs2) => .next (d2, evs ++ evs2) := by
  induction a generalizing d evs with
  | nil =>
    simp only [feed_nil, Host.Outcome.next.injEq, Prod.mk.injEq] at h
    obtain ⟨rfl, rfl⟩ := h
    simp only [List.nil_append]
    cases feed d c <;> rfl
  | cons b a ih =>
    obtain ⟨dm, ev, evs1, hb, hr, rfl⟩ := feed_cons_next d d1 b a evs h
    rw [List.cons_append, feed_cons d dm b (a ++ c) ev hb, ih dm evs1 hr]
    cases feed d1 c <;> simp

end Sys2Proof.Machine
end

