-- ==== Sys2Proof/Laws/Engine.lean ====
section
/-! SUPPORT. The dispatch of decode events: what it leaves and what it emits, and that it does not look at the decoder
or at the event output (spec/43_protocol_engine.md R183 to R187). -/

namespace Sys2Proof.Machine

/-- What the dispatch of one event emits, and how many timestamps it draws, as a function of the parameters and the
number of draws so far. -/
def dispatchOutputs (p : Params) (n : Nat) (e : DecodeEvent) : List Output × Nat :=
  match e with
  | .checksumMismatch => ([.checksumMismatch], n)
  | .frameReady f =>
    if f.typ = p.sensorType then
      if Config.sensorLen ≤ f.len.toNat then
        match sensdec p f.payload with
        | some v =>
          ([.frameReceived f.version f.typ f.id f.len f.payload, .sensorReading v (Config.timestamp n)], n + 1)
        | none => ([.frameReceived f.version f.typ f.id f.len f.payload, .insufficientPayload], n)
      else ([.frameReceived f.version f.typ f.id f.len f.payload, .insufficientPayload], n)
    else ([.frameReceived f.version f.typ f.id f.len f.payload], n)

/-- The dispatch of one event, whole: outputs appended and timestamps drawn; nothing else. -/
theorem dispatchEvent_eq (s : State) (e : DecodeEvent) :
    dispatchEvent s e = { s with
      outputs := s.outputs ++ (dispatchOutputs s.params s.draws e).1
      draws := (dispatchOutputs s.params s.draws e).2 } := by
  cases e with
  | checksumMismatch => rfl
  | frameReady f =>
    simp only [dispatchEvent, dispatchOutputs, dispatchSensor, notifyFrame, State.output_params]
    by_cases ht : f.typ = s.params.sensorType
    · simp only [ht, if_true]
      by_cases hl : Config.sensorLen ≤ f.len.toNat
      · simp only [hl, if_true]
        cases sensdec s.params f.payload <;> simp [State.output, State.countDraw]
      · simp only [hl, if_false]
        simp [State.output]
    · simp only [ht, if_false]
      simp [State.output]

/-- What the dispatch of a list of events emits. -/
def dispatchListOutputs (p : Params) (n : Nat) : List DecodeEvent → List Output × Nat
  | [] => ([], n)
  | e :: es =>
    ((dispatchOutputs p n e).1 ++ (dispatchListOutputs p (dispatchOutputs p n e).2 es).1,
      (dispatchListOutputs p (dispatchOutputs p n e).2 es).2)

/-- The loop of R183, whole. -/
theorem dispatchAll_eq (s : State) (es : List DecodeEvent) :
    dispatchAll s es = { s with
      outputs := s.outputs ++ (dispatchListOutputs s.params s.draws es).1
      draws := (dispatchListOutputs s.params s.draws es).2 } := by
  induction es generalizing s with
  | nil => simp [dispatchAll, dispatchListOutputs]
  | cons e es ih =>
    rw [dispatchAll, List.foldl_cons, ← dispatchAll, ih, dispatchEvent_eq]
    simp [dispatchListOutputs]

theorem dispatchAll_append (s : State) (a b : List DecodeEvent) :
    dispatchAll s (a ++ b) = dispatchAll (dispatchAll s a) b := by
  simp [dispatchAll]

@[simp] theorem decodeEvents_map (es : List DecodeEvent) : decodeEvents (es.map Event.decode) = es := by
  induction es with
  | nil => rfl
  | cons e es ih => simp [decodeEvents, ih]

/-- After a receive step the engine dispatches exactly the events the step raised. -/
theorem dispatchRaised_raise (s u : State) (es : List DecodeEvent) (h : u.events = s.events) :
    dispatchRaised s (u.raise (es.map Event.decode)) = dispatchAll (u.raise (es.map Event.decode)) es := by
  simp [dispatchRaised, h]

/-- Feeding the connection, whole. -/
theorem feedEngine_next (s : State) (d d' : DecoderState) (chunk : List Byte) (evs : List DecodeEvent)
    (he : s.engine = some d) (hf : feed d chunk = .next (d', evs)) :
    feedEngine chunk s = .next ((s.setEngine (some d')).raise (evs.map Event.decode), evs) := by
  simp [feedEngine, he, hf]

/-- What feeding the connection has done where it goes on. -/
theorem feedEngine_inv (s t : State) (chunk : List Byte) (evs : List DecodeEvent)
    (h : feedEngine chunk s = .next (t, evs)) :
    ∃ d d', s.engine = some d ∧ feed d chunk = .next (d', evs) ∧
      t = (s.setEngine (some d')).raise (evs.map Event.decode) := by
  unfold feedEngine at h
  cases he : s.engine with
  | none => simp [he] at h
  | some d =>
    simp only [he] at h
    cases hf : feed d chunk with
    | fault r => simp [hf] at h
    | refused r => simp [hf] at h
    | next p =>
      obtain ⟨d', evs'⟩ := p
      simp only [hf, Host.Outcome.next.injEq, Prod.mk.injEq] at h
      obtain ⟨h1, rfl⟩ := h
      exact ⟨d, d', rfl, hf, h1.symm⟩

end Sys2Proof.Machine
end

