-- ==== Sys2Proof/Laws/Codec.lean ====
section
/-! SUPPORT. Arithmetic of the checksum (spec/41_frame_encoder.md R140), of rounding (spec/42_sensor_codec.md R166) and
of the raw sensor fields (R163, R164). -/

namespace Sys2Proof.Machine

theorem foldl_add (s : List Byte) (a : Byte) : s.foldl (fun acc b => acc + b) a = a + cksum s := by
  induction s generalizing a with
  | nil => simp [cksum]
  | cons b s ih =>
    simp only [cksum, List.foldl_cons]
    rw [ih (a + b), ih (0 + b)]
    simp [BitVec.add_assoc]

@[simp] theorem cksum_nil : cksum [] = 0 := rfl

theorem cksum_cons (b : Byte) (s : List Byte) : cksum (b :: s) = b + cksum s := by
  rw [cksum, List.foldl_cons, foldl_add]
  simp

theorem cksum_append (s t : List Byte) : cksum (s ++ t) = cksum s + cksum t := by
  induction s with
  | nil => simp
  | cons b s ih => simp [cksum_cons, ih, BitVec.add_assoc]

/-- The checksum is the sum of the bytes' values modulo 256 (R140). -/
theorem cksum_toNat (s : List Byte) : (cksum s).toNat = (s.map BitVec.toNat).sum % 256 := by
  induction s with
  | nil => rfl
  | cons b s ih => simp [cksum_cons, BitVec.toNat_add, ih]

/-- The low byte of an integer is its floored remainder (R142). -/
theorem lowByte_toNat (v : Int) : ((lowByte v).toNat : Int) = v % 256 := by
  simp [lowByte, BitVec.toNat_ofInt]
  omega

/-- Rounding lies between the floor and the next integer. -/
theorem rnd_floor_or_next (tie : TieRule) (n : Int) (d : Nat) : rnd tie n d = n / d ∨ rnd tie n d = n / d + 1 := by
  unfold rnd
  split
  · exact .inl rfl
  · split
    · exact .inr rfl
    · cases tie
      · exact .inr rfl
      · simp only [tieResult]
        split <;> simp
      · simp only [tieResult]
        split <;> simp

/-- `raw_h` as a number: bits 19..12, 11..4 and 3..0 (R163). -/
theorem rawHumidity_toNat (b0 b1 b2 : Byte) :
    (rawHumidity b0 b1 b2).toNat = b0.toNat * 4096 + b1.toNat * 16 + b2.toNat / 16 := by
  have h0 := b0.isLt
  have h1 := b1.isLt
  have h2 := b2.isLt
  have e : rawHumidity b0 b1 b2 = b0 ++ b1 ++ b2.extractLsb' 4 4 := by
    apply BitVec.eq_of_getLsbD_eq
    intro i hi
    rw [rawHumidity, BitVec.getLsbD_or, BitVec.getLsbD_or]
    change _ = BitVec.getLsbD (w := 8 + 8 + 4) (b0 ++ b1 ++ b2.extractLsb' 4 4) i
    rw [BitVec.getLsbD_append, BitVec.getLsbD_append]
    have : i = 0 ∨ i = 1 ∨ i = 2 ∨ i = 3 ∨ i = 4 ∨ i = 5 ∨ i = 6 ∨ i = 7 ∨ i = 8 ∨ i = 9 ∨ i = 10 ∨ i = 11 ∨ i = 12
      ∨ i = 13 ∨ i = 14 ∨ i = 15 ∨ i = 16 ∨ i = 17 ∨ i = 18 ∨ i = 19 := by omega
    rcases this with rfl | rfl | rfl | rfl | rfl | rfl | rfl | rfl | rfl | rfl | rfl | rfl | rfl | rfl | rfl | rfl |
      rfl | rfl | rfl | rfl <;> simp
  rw [e]
  change BitVec.toNat (w := 8 + 8 + 4) (b0 ++ b1 ++ b2.extractLsb' 4 4) = _
  rw [BitVec.toNat_append, BitVec.toNat_append, ← Nat.shiftLeft_add_eq_or_of_lt (BitVec.isLt _),
    ← Nat.shiftLeft_add_eq_or_of_lt (BitVec.isLt _)]
  simp [Nat.shiftLeft_eq, Nat.shiftRight_eq_div_pow]
  omega

/-- `raw_t` as a number: bits 19..16, 15..8 and 7..0 (R164). -/
theorem rawTemperature_toNat (b2 b3 b4 : Byte) :
    (rawTemperature b2 b3 b4).toNat = b2.toNat % 16 * 65536 + b3.toNat * 256 + b4.toNat := by
  have h2 := b2.isLt
  have h3 := b3.isLt
  have h4 := b4.isLt
  have e : rawTemperature b2 b3 b4 = b2.extractLsb' 0 4 ++ b3 ++ b4 := by
    apply BitVec.eq_of_getLsbD_eq
    intro i hi
    rw [rawTemperature, BitVec.getLsbD_or, BitVec.getLsbD_or]
    change _ = BitVec.getLsbD (w := 4 + 8 + 8) (b2.extractLsb' 0 4 ++ b3 ++ b4) i
    rw [BitVec.getLsbD_append, BitVec.getLsbD_append]
    have : i = 0 ∨ i = 1 ∨ i = 2 ∨ i = 3 ∨ i = 4 ∨ i = 5 ∨ i = 6 ∨ i = 7 ∨ i = 8 ∨ i = 9 ∨ i = 10 ∨ i = 11 ∨ i = 12
      ∨ i = 13 ∨ i = 14 ∨ i = 15 ∨ i = 16 ∨ i = 17 ∨ i = 18 ∨ i = 19 := by omega
    rcases this with rfl | rfl | rfl | rfl | rfl | rfl | rfl | rfl | rfl | rfl | rfl | rfl | rfl | rfl | rfl | rfl |
      rfl | rfl | rfl | rfl <;> simp
  rw [e]
  change BitVec.toNat (w := 4 + 8 + 8) (b2.extractLsb' 0 4 ++ b3 ++ b4) = _
  rw [BitVec.toNat_append, BitVec.toNat_append, ← Nat.shiftLeft_add_eq_or_of_lt (BitVec.isLt _),
    ← Nat.shiftLeft_add_eq_or_of_lt (BitVec.isLt _)]
  simp [Nat.shiftLeft_eq]
  omega

end Sys2Proof.Machine
end

