-- ==== Sys2Proof/Laws/Invariant.lean ====
section
/-! SUPPORT. The decoder invariant along byte steps and chunks (spec/10_state.md R25, R27, R28, R36;
spec/40_frame_decoder.md R122), the ranges of the sensor values (spec/42_sensor_codec.md R170), and what one fetched
input does. -/

namespace Sys2Proof.Machine

/-- A buffer that holds exactly the indices below `n` holds `n` bytes. -/
theorem bytes_length_of_held (m : Memory) (n : Nat) (h : m.map Prod.fst = List.range n) : m.bytes.length = n := by
  have := congrArg List.length h
  simpa [Memory.bytes] using this

/-- The reset decoder meets the invariant (R35). -/
theorem decoderReset_inv : DecoderState.reset.Inv :=
  ⟨fun _ => rfl, rfl, rfl, rfl⟩

/-- From an invariant decoder every byte has a transition, the invariant is kept, and an emitted frame is valid. -/
theorem byteStep_inv (d : DecoderState) (b : Byte) (hi : d.Inv) :
    ∃ d' ev, byteStep d b = .next (d', ev) ∧ d'.Inv ∧ (∀ f, ev = some (.frameReady f) → f.valid) := by
  have hc := hi.cursor
  have hh := hi.held
  have hs := hi.sum
  have hn := hi.hunt
  cases hd : d.state <;> simp only [DecoderState.cursorOk, DecoderState.accOk, hd] at hc hs
  case waitPreamble1 =>
    rw [byteStep_waitPreamble1 d b hd]
    refine ⟨_, _, rfl, ?_, by simp⟩
    have := hn (.inl hd)
    split
    · rw [this]; exact ⟨fun _ => rfl, rfl, rfl, rfl⟩
    · exact hi
  case waitPreamble2 =>
    rw [byteStep_waitPreamble2 d b hd]
    refine ⟨_, _, rfl, ?_, by simp⟩
    have := hn (.inr hd)
    split
    · rw [this]; exact ⟨(fun h => by rcases h with h | h <;> cases h), rfl, rfl, rfl⟩
    · split
      · exact hi
      · rw [this]; exact ⟨fun _ => rfl, rfl, rfl, rfl⟩
  case readVersion =>
    rw [byteStep_readVersion d b hd]
    refine ⟨_, _, rfl, ⟨(fun h => by rcases h with h | h <;> cases h), hc, hh, ?_⟩, by simp⟩
    simp [DecoderState.accOk, cksum_cons]
  case readType =>
    rw [byteStep_readType d b hd]
    refine ⟨_, _, rfl, ⟨(fun h => by rcases h with h | h <;> cases h), hc, hh, ?_⟩, by simp⟩
    simp [DecoderState.accOk, cksum_cons, hs]
  case readId =>
    rw [byteStep_readId d b hd]
    refine ⟨_, _, rfl, ⟨(fun h => by rcases h with h | h <;> cases h), hc, hh, ?_⟩, by simp⟩
    simp [DecoderState.accOk, cksum_cons, hs, BitVec.add_assoc]
  case readLen =>
    rw [byteStep_readLen d b hd]
    refine ⟨_, _, rfl, ?_, by simp⟩
    have hp : d.pbuf = [] := by simpa [hc] using hh
    split
    · refine ⟨(fun h => by rcases h with h | h <;> cases h), ⟨by simp, hc⟩, hh, ?_⟩
      simp [DecoderState.accOk, cksum_cons, hs, hp, Memory.bytes]
    · split
      · exact decoderReset_inv
      · rename_i h0 h1
        refine ⟨(fun h => by rcases h with h | h <;> cases h), ⟨one_le_of_ne_zero b h0, Nat.le_of_not_lt h1, ?_⟩, rfl, ?_⟩
        · exact one_le_of_ne_zero b h0
        · simp [DecoderState.accOk, cksum_cons, hs, Memory.bytes, BitVec.add_assoc]
  case readPayload =>
    rw [byteStep_readPayload d b hd]
    obtain ⟨h1, h2, h3⟩ := hc
    have hlt : d.cur.toNat < Config.maxPayload := by omega
    have hl := d.len.isLt
    have hcur : (d.cur + 1).toNat = d.cur.toNat + 1 := by simp; omega
    have hw := Memory.write_dense d.pbuf d.cur.toNat b hh
    by_cases hm : payloadMore d
    · rw [if_pos hm, storePayloadByte_next _ _ _ hlt]
      simp only [payloadMore, decide_eq_true_eq] at hm
      refine ⟨_, _, rfl, ⟨(fun h => by rcases h with h | h <;> cases h), ⟨h1, h2, by rw [hcur]; exact hm⟩, ?_, ?_⟩, by simp⟩
      · show _ = List.range (d.cur + 1).toNat
        rw [hcur]
        exact hw.1
      · simp only [DecoderState.accOk]
        rw [hw.2, hs, ← List.append_assoc, cksum_append _ [b]]
        simp [cksum_cons]
    · rw [if_neg hm]
      simp only [payloadMore, decide_eq_true_eq] at hm
      have hle : d.cur.toNat + 1 = d.len.toNat := by omega
      rw [if_pos (by simpa [payloadLast] using hle), storePayloadByte_next _ _ _ hlt]
      refine ⟨_, _, rfl, ⟨(fun h => by rcases h with h | h <;> cases h), ⟨h2, ?_⟩, ?_, ?_⟩, by simp⟩
      · apply BitVec.eq_of_toNat_eq; rw [hcur]; exact hle
      · show _ = List.range (d.cur + 1).toNat
        rw [hcur]
        exact hw.1
      · simp only [DecoderState.accOk]
        rw [hw.2, hs, ← List.append_assoc, cksum_append _ [b]]
        simp [cksum_cons]
  case readChecksum =>
    by_cases hb : b = d.acc
    · rw [hc.2] at hh
      rw [byteStep_readChecksum_equal d b _ hd hb (captureFrame_dense d b hh)]
      refine ⟨_, _, rfl, decoderReset_inv, ?_⟩
      intro f hf
      simp only [Option.some.injEq, DecodeEvent.frameReady.injEq] at hf
      subst hf
      have := bytes_length_of_held _ _ hh
      exact ⟨this.symm, by show d.pbuf.bytes.length ≤ _; rw [this]; exact hc.1, by rw [hb, hs]⟩
    · rw [byteStep_readChecksum_differs d b hd hb]
      exact ⟨_, _, rfl, decoderReset_inv, by simp⟩

/-- The same along a chunk, with at most one event a byte. -/
theorem feed_inv (d : DecoderState) (bs : List Byte) (hi : d.Inv) :
    ∃ d' evs, feed d bs = .next (d', evs) ∧ d'.Inv ∧ (∀ f, .frameReady f ∈ evs → f.valid) ∧ evs.length ≤ bs.length := by
  induction bs generalizing d with
  | nil => exact ⟨d, [], rfl, hi, by simp, by simp⟩
  | cons b bs ih =>
    obtain ⟨d1, ev, hb, hi1, hv⟩ := byteStep_inv d b hi
    obtain ⟨d2, evs, hf, hi2, hv2, hl⟩ := ih d1 hi1
    refine ⟨d2, ev.toList ++ evs, by rw [feed_cons d d1 b bs ev hb, hf], hi2, ?_, ?_⟩
    · intro f hf
      rw [List.mem_append] at hf
      rcases hf with hf | hf
      · exact hv f (by simpa using hf)
      · exact hv2 f hf
    · cases ev <;> simp <;> omega

/-- The humidity lies between 0 and 10000 (R170). -/
theorem humidityHundredths_range (tie : TieRule) (raw : Raw20) :
    0 ≤ humidityHundredths tie raw ∧ humidityHundredths tie raw ≤ 10000 := by
  have h := raw.isLt
  unfold humidityHundredths
  rcases rnd_floor_or_next tie (raw.toNat * 10000) (2^20) with e | e <;> rw [e] <;> omega

/-- Narrowing to 14 bits loses nothing. -/
theorem hum100_toNat (tie : TieRule) (raw : Raw20) : ((hum100 tie raw).toNat : Int) = humidityHundredths tie raw := by
  have := humidityHundredths_range tie raw
  rw [hum100, BitVec.toNat_ofInt]
  omega

/-- The temperature lies between -5000 and 15000 (R170). -/
theorem temperatureHundredths_range (tie : TieRule) (raw : Raw20) :
    -5000 ≤ temperatureHundredths tie raw ∧ temperatureHundredths tie raw ≤ 15000 := by
  have h := raw.isLt
  unfold temperatureHundredths
  rcases rnd_floor_or_next tie (raw.toNat * 20000 - 5000*2^20) (2^20) with e | e <;> rw [e] <;> omega

/-- Narrowing to 15 bits loses nothing. -/
theorem temp100_toInt (tie : TieRule) (raw : Raw20) : (temp100 tie raw).toInt = temperatureHundredths tie raw := by
  have := temperatureHundredths_range tie raw
  rw [temp100, BitVec.toInt_ofInt]
  rw [Int.bmod_eq_of_le] <;> omega

/-- What the codec answers is in range. -/
theorem sensdec_inRange (p : Params) (l : List Byte) (v : SensorValues) (h : sensdec p l = some v) : v.inRange := by
  unfold sensdec at h
  split at h
  · simp at h
  · simp only [Option.some.injEq] at h
    subst h
    refine ⟨?_, ?_, ?_⟩
    · have := hum100_toNat p.tieRule (payloadRawHumidity p.sensorLayout l)
      have := humidityHundredths_range p.tieRule (payloadRawHumidity p.sensorLayout l)
      simp only; omega
    · simp only; rw [temp100_toInt]; exact (temperatureHundredths_range _ _).1
    · simp only; rw [temp100_toInt]; exact (temperatureHundredths_range _ _).2

/-- A valid frame is dispatched to outputs that are well-formed. -/
theorem dispatchOutputs_ok (p : Params) (n : Nat) (e : DecodeEvent) (he : (Event.decode e).ok) :
    ∀ o ∈ (dispatchOutputs p n e).1, o.ok := by
  intro o ho
  cases e with
  | checksumMismatch => simp [dispatchOutputs] at ho; subst ho; trivial
  | frameReady f =>
    have hfr : Output.ok (.frameReceived f.version f.typ f.id f.len f.payload) := ⟨he.1, he.2.1⟩
    simp only [dispatchOutputs] at ho
    split at ho
    · split at ho
      · split at ho
        · rename_i v hv
          simp at ho
          rcases ho with rfl | rfl
          · exact hfr
          · exact sensdec_inRange p _ v hv
        · simp at ho
          rcases ho with rfl | rfl
          · exact hfr
          · trivial
      · simp at ho
        rcases ho with rfl | rfl
        · exact hfr
        · trivial
    · simp at ho; subst ho; exact hfr

/-- The same along a list of events. -/
theorem dispatchListOutputs_ok (p : Params) (n : Nat) (es : List DecodeEvent) (he : ∀ e ∈ es, (Event.decode e).ok) :
    ∀ o ∈ (dispatchListOutputs p n es).1, o.ok := by
  induction es generalizing n with
  | nil => simp [dispatchListOutputs]
  | cons e es ih =>
    intro o ho
    simp only [dispatchListOutputs, List.mem_append] at ho
    rcases ho with ho | ho
    · exact dispatchOutputs_ok p n e (he e (by simp)) o ho
    · exact ih _ (fun x hx => he x (by simp [hx])) o ho

/-- Writing back an invariant decoder and raising its valid events keeps the machine invariant. -/
theorem raise_setEngine_inv (s : State) (d' : DecoderState) (evs : List DecodeEvent) (hi : s.Inv) (hd : d'.Inv)
    (hv : ∀ f, .frameReady f ∈ evs → f.valid) :
    ((s.setEngine (some d')).raise (evs.map Event.decode)).Inv := by
  refine ⟨?_, ?_, ?_⟩
  · intro d h; simp at h; subst h; exact hd
  · intro e he
    simp at he
    rcases he with he | ⟨x, hx, rfl⟩
    · exact hi.events e he
    · cases x with
      | checksumMismatch => trivial
      | frameReady f => exact hv f hx
  · intro o ho; simp at ho; exact hi.outputs o ho

/-- Dispatching valid events keeps the machine invariant. -/
theorem dispatchAll_inv (s : State) (evs : List DecodeEvent) (hi : s.Inv) (hv : ∀ f, .frameReady f ∈ evs → f.valid) :
    (dispatchAll s evs).Inv := by
  rw [dispatchAll_eq]
  refine ⟨hi.decoder, hi.events, ?_⟩
  intro o ho
  simp only [List.mem_append] at ho
  rcases ho with ho | ho
  · exact hi.outputs o ho
  · refine dispatchListOutputs_ok _ _ evs ?_ o ho
    intro e he
    cases e with
    | checksumMismatch => trivial
    | frameReady f => exact hv f he

/-- The host's remaining inputs are no part of the invariant. -/
theorem setInput_inv (s : State) (is) (hi : s.Inv) : (s.setInput is).Inv := ⟨hi.decoder, hi.events, hi.outputs⟩

/-- Appending well-formed outputs keeps the machine invariant. -/
theorem output_inv (s : State) (os) (hi : s.Inv) (ho : ∀ o ∈ os, Output.ok o) : (s.output os).Inv := by
  refine ⟨hi.decoder, hi.events, ?_⟩
  intro o h; simp at h; rcases h with h | h
  · exact hi.outputs o h
  · exact ho o h

/-- A received byte: the decoder's byte step, its event raised, then the dispatch (R10 a, R183). -/
theorem step_byte (s : State) (d d1 : DecoderState) (b : Byte) (rest : List Input) (ev : Option DecodeEvent)
    (hin : s.input = .byte b :: rest) (he : s.engine = some d) (hb : byteStep d b = .next (d1, ev)) :
    step s = .next (dispatchAll (((s.setInput rest).setEngine (some d1)).raise (ev.toList.map Event.decode)) ev.toList) := by
  unfold step fetch
  simp only [hin, he]
  cases hfi : fetchInstr d b with
  | fault r => simp [byteStep, hfi] at hb
  | refused r => simp [byteStep, hfi] at hb
  | next i =>
    obtain ⟨cc, h1, h2⟩ := fetchInstr_next d b i hfi
    have hrx := selected_rxByte cc d.state b i h2
    have ht : transition i d = .next (d1, ev) := by rw [← byteStep_fetched d b i hfi]; exact hb
    simp only [exec_rx i _ b hrx, rxApply, State.setInput_engine, he, ht, afterExec, hrx]
    rw [dispatchRaised_raise _ _ _ (by simp)]

/-- A call: its operation. -/
theorem step_call (s : State) (c : HostCall) (rest : List Input) (hin : s.input = .call c :: rest) :
   step s = exec c.instr (s.setInput rest) := by
  unfold step fetch
  simp only [hin]
  cases c <;> simp only [HostCall.instr, afterExec, Instr.rxByte] <;> (split <;> simp_all)

end Sys2Proof.Machine
end

