-- ==== Sys2Proof/Laws/Frames.lean ====
section
/-! SUPPORT. Feeding a payload and a whole frame (spec/40_frame_decoder.md R112 to R116, R121). -/

namespace Sys2Proof.Machine

/-- A whole payload fed to a decoder in `ReadPayload`: the bytes are appended to the buffer and added to `ACC`. -/
theorem feed_payload (d : DecoderState) (p : List Byte) (h : d.state = .readPayload) (hp : p ≠ [])
    (hh : d.pbuf.map Prod.fst = List.range d.cur.toNat) (hl : d.cur.toNat + p.length = d.len.toNat)
    (hm : d.len.toNat ≤ Config.maxPayload) :
    ∃ m : Memory, m.map Prod.fst = List.range d.len.toNat ∧ m.bytes = d.pbuf.bytes ++ p ∧
      feed d p = .next ({ d with pbuf := m, cur := d.len, acc := d.acc + cksum p, state := .readChecksum }, []) := by
  induction p generalizing d with
  | nil => exact absurd rfl hp
  | cons b p ih =>
    have hlt : d.cur.toNat < Config.maxPayload := by simp at hl; omega
    have hl128 : d.len.toNat ≤ 128 := hm
    have hcur : (d.cur + 1).toNat = d.cur.toNat + 1 := by simp at hl ⊢; omega
    have hw := Memory.write_dense d.pbuf d.cur.toNat b hh
    simp only [List.length_cons] at hl
    by_cases hq : p = []
    · subst hq
      have h1 : ¬ payloadMore d = true := by simp [payloadMore] at *; omega
      have h2 : payloadLast d = true := by simp [payloadLast] at *; omega
      have hs := byteStep_readPayload d b h
      rw [if_neg h1, if_pos h2, storePayloadByte_next _ _ _ hlt] at hs
      refine ⟨d.pbuf.write d.cur.toNat b, ?_, hw.2, ?_⟩
      · rw [hw.1]
        congr 1
      · rw [feed_cons_silent _ _ _ _ hs]
        have : d.cur + 1 = d.len := BitVec.eq_of_toNat_eq (by rw [hcur]; simpa using hl)
        rw [this]
        simp [cksum_cons]
    · have hpos : 0 < p.length := List.length_pos_iff.2 hq
      have h1 : payloadMore d = true := by simp [payloadMore]; omega
      have hs := byteStep_readPayload d b h
      rw [if_pos h1, storePayloadByte_next _ _ _ hlt] at hs
      obtain ⟨m, e1, e2, e3⟩ := ih
        { d with pbuf := d.pbuf.write d.cur.toNat b, cur := d.cur + 1, acc := d.acc + b, state := .readPayload } rfl hq
        (by show _ = List.range (d.cur + 1).toNat; rw [hcur]; exact hw.1)
        (by show (d.cur + 1).toNat + _ = _; rw [hcur]; simp only; omega) hm
      refine ⟨m, e1, ?_, ?_⟩
      · rw [e2, hw.2]
        simp
      · rw [feed_cons_silent _ _ _ _ hs, e3]
        simp [cksum_cons, BitVec.add_assoc]

/-- What a checksum byte does to a decoder that has read the frame's fields: one event, and the reset state. -/
theorem feed_checksum (v t i c : Byte) (p : List Byte) (d : DecoderState) (h : d.state = .readChecksum)
    (hv : d.version = v) (ht : d.typ = t) (hi : d.id = i) (hl : d.len = BitVec.ofNat 8 p.length)
    (hp : d.pbuf.bytes = p) (hh : d.pbuf.map Prod.fst = List.range d.len.toNat)
    (ha : d.acc = cksum (frameBody v t i p)) :
    feed d [c] = .next (DecoderState.reset,
      [if c = cksum (frameBody v t i p) then .frameReady ⟨v, t, i, BitVec.ofNat 8 p.length, p, c⟩
       else .checksumMismatch]) := by
  rw [← ha]
  by_cases hc : c = d.acc
  · rw [feed_cons _ _ _ _ _ (byteStep_readChecksum_equal d c _ h hc (captureFrame_dense d c hh))]
    simp [hc, hv, ht, hi, hl, hp]
  · rw [feed_cons _ _ _ _ _ (byteStep_readChecksum_differs d c h hc)]
    simp [hc]

/-- The preamble and the three header bytes, fed to a hunting decoder. -/
theorem feed_header (v t i : Byte) (rest : List Byte) (d : DecoderState)
    (hd : d = DecoderState.reset ∨ d = { DecoderState.reset with state := .waitPreamble2 }) :
    feed d (0xAA#8 :: 0x55#8 :: v :: t :: i :: rest) =
      feed { DecoderState.reset with state := .readLen, version := v, typ := t, id := i, acc := v + t + i } rest := by
  rw [feed_cons_silent d { DecoderState.reset with state := .waitPreamble2 }]
  · rw [feed_cons_silent _ { DecoderState.reset with state := .readVersion }]
    · rw [feed_cons_silent _ _ _ _ (byteStep_readVersion _ _ rfl), feed_cons_silent _ _ _ _ (byteStep_readType _ _ rfl),
        feed_cons_silent _ _ _ _ (byteStep_readId _ _ rfl)]
    · rw [byteStep_waitPreamble2 _ _ rfl]
      rfl
  · rcases hd with rfl | rfl
    · rw [byteStep_waitPreamble1 _ _ rfl]
      rfl
    · rw [byteStep_waitPreamble2 _ _ rfl]
      rfl

/-- A framed byte string with any checksum byte, fed to a hunting decoder: one event, and the reset state. -/
theorem feed_rawFrame (v t i c : Byte) (p : List Byte) (hp : p.length ≤ 128) (d : DecoderState)
    (hd : d = DecoderState.reset ∨ d = { DecoderState.reset with state := .waitPreamble2 }) :
    feed d ([0xAA#8, 0x55#8] ++ frameBody v t i p ++ [c]) = .next (DecoderState.reset,
      [if c = cksum (frameBody v t i p) then .frameReady ⟨v, t, i, BitVec.ofNat 8 p.length, p, c⟩
       else .checksumMismatch]) := by
  have e : [0xAA#8, 0x55#8] ++ frameBody v t i p ++ [c] =
      0xAA#8 :: 0x55#8 :: v :: t :: i :: (BitVec.ofNat 8 p.length :: p ++ [c]) := rfl
  rw [e, feed_header v t i _ d hd]
  by_cases hq : p = []
  · subst hq
    rw [List.cons_append, feed_cons_silent _ _ _ _ (byteStep_readLen _ _ rfl), if_pos (by rfl)]
    exact feed_checksum v t i c [] _ rfl rfl rfl rfl rfl rfl rfl (by simp [frameBody, cksum_cons, BitVec.add_assoc])
  · have hpos : 0 < p.length := List.length_pos_iff.2 hq
    have hN : (BitVec.ofNat 8 p.length).toNat = p.length := by simp; omega
    have h0 : ¬ BitVec.ofNat 8 p.length = 0#8 := by
      intro e0
      have := congrArg BitVec.toNat e0
      rw [hN] at this
      exact absurd this (Nat.ne_of_gt hpos)
    rw [List.cons_append, feed_cons_silent _ _ _ _ (byteStep_readLen _ _ rfl), if_neg h0,
      if_neg (by rw [hN]; show ¬ 128 < _; omega)]
    obtain ⟨m, e1, e2, e3⟩ := feed_payload
      { DecoderState.reset with
        state := .readPayload
        version := v
        typ := t
        id := i
        acc := v + t + i + BitVec.ofNat 8 p.length
        len := BitVec.ofNat 8 p.length
        cur := 0
        pbuf := [] }
      p rfl hq rfl (by show 0 + p.length = _; rw [hN]; simp) (by show (BitVec.ofNat 8 p.length).toNat ≤ 128; omega)
    rw [feed_append _ _ _ _ _ e3, feed_checksum v t i c p _ rfl rfl rfl rfl rfl (by simpa [Memory.bytes] using e2) e1
      (by simp [frameBody, cksum_cons, BitVec.add_assoc])]
    simp

end Sys2Proof.Machine
end

