-- ==== Sys2Proof/Laws/PerInstr.lean ====
section
/-! SUPPORT. A family with one lemma per constructor of Instr: what the word of an operation looks like
(spec/30_encoding.md R79, R81). -/

namespace Sys2Proof.Laws.EncodingShape

/-- An operation with a word is a receive step: the word's low byte is the received byte (R79) and its four upper bits
are 0 (log entry 5); an operation without a word is no receive step (R81). -/
def Statement (i : Instr) : Prop :=
  match Sys2Proof.encode i with
  | some w => i.rxByte = some (selByte w) ∧ w.extractLsb' 12 4 = 0#4
  | none => i.rxByte = none

/-- The word of a row whose `match` leaves the byte bits 0. -/
theorem rowWord_shape (c : RegCond) (p : BitVec 3) (b : Byte) :
    selByte (rowWord (p ++ 0#8) c b) = b ∧ (rowWord (p ++ 0#8) c b).extractLsb' 12 4 = 0#4 := by
  cases c <;> revert p <;> revert b <;> decide +kernel

theorem wp1Sync : Statement .wp1Sync := by
  constructor <;> decide

theorem wp1Skip (b : Byte) : Statement (.wp1Skip b) := by
  have h := rowWord_shape .always 0#3 b
  exact ⟨congrArg some h.1.symm, h.2⟩

theorem wp2Lock : Statement .wp2Lock := by
  constructor <;> decide

theorem wp2Hold : Statement .wp2Hold := by
  constructor <;> decide

theorem wp2Miss (b : Byte) : Statement (.wp2Miss b) := by
  have h := rowWord_shape .always 1#3 b
  exact ⟨congrArg some h.1.symm, h.2⟩

theorem rdver (b : Byte) : Statement (.rdver b) := by
  have h := rowWord_shape .always 2#3 b
  exact ⟨congrArg some h.1.symm, h.2⟩

theorem rdtype (b : Byte) : Statement (.rdtype b) := by
  have h := rowWord_shape .always 3#3 b
  exact ⟨congrArg some h.1.symm, h.2⟩

theorem rdid (b : Byte) : Statement (.rdid b) := by
  have h := rowWord_shape .always 4#3 b
  exact ⟨congrArg some h.1.symm, h.2⟩

theorem rdlenZero : Statement .rdlenZero := by
  constructor <;> decide

theorem rdlenOver (b : Byte) : Statement (.rdlenOver b) := by
  have h := rowWord_shape .always 5#3 b
  exact ⟨congrArg some h.1.symm, h.2⟩

theorem rdlenData (b : Byte) : Statement (.rdlenData b) := by
  have h := rowWord_shape .always 5#3 b
  exact ⟨congrArg some h.1.symm, h.2⟩

theorem rdpayMore (b : Byte) : Statement (.rdpayMore b) := by
  have h := rowWord_shape .curBeforeEnd 6#3 b
  exact ⟨congrArg some h.1.symm, h.2⟩

theorem rdpayLast (b : Byte) : Statement (.rdpayLast b) := by
  have h := rowWord_shape .curAtEnd 6#3 b
  exact ⟨congrArg some h.1.symm, h.2⟩

theorem rdcsumOk (b : Byte) : Statement (.rdcsumOk b) := by
  have h := rowWord_shape .accEqual 7#3 b
  exact ⟨congrArg some h.1.symm, h.2⟩

theorem rdcsumBad (b : Byte) : Statement (.rdcsumBad b) := by
  have h := rowWord_shape .accDiffers 7#3 b
  exact ⟨congrArg some h.1.symm, h.2⟩

theorem badstate (b : Byte) : Statement (.badstate b) := rfl

theorem feed (bytes : List Byte) : Statement (.feed bytes) := rfl

theorem encode (typ : Int) (id : Int) (payload : List Byte) : Statement (.encode typ id payload) := rfl

theorem sensdec (payload : List Byte) : Statement (.sensdec payload) := rfl

theorem connect : Statement .connect := rfl

theorem teardown : Statement .teardown := rfl

theorem onbytes (chunk : List Byte) : Statement (.onbytes chunk) := rfl

theorem sendcmd (typ : Int) (id : Int) (payload : List Byte) (avail : Bool) : Statement (.sendcmd typ id payload avail) := rfl

end Sys2Proof.Laws.EncodingShape
end

