-- ==== Sys2Proof/Laws/Transitions.lean ====
section
/-! SUPPORT. One inversion lemma per row of spec/30_encoding.md R80: when the transition goes on, and what it answers. -/

namespace Sys2Proof.Machine

/-- A guarded answer goes on exactly when its guard holds. -/
theorem guarded_next {c : Prop} [Decidable c] {x : RxResult} {p : DecoderState × Option DecodeEvent} :
    (if c then x else .refused .notSelected) = .next p ↔ c ∧ x = .next p := by
  by_cases h : c <;> simp [h]

/-- An answer's parts. -/
theorem answer_next {x d' : DecoderState} {y ev : Option DecodeEvent} :
    (Host.Outcome.next (x, y) : RxResult) = .next (d', ev) ↔ d' = x ∧ ev = y := by
  simp [eq_comm]

theorem wp1Sync_next {d d' : DecoderState} {ev : Option DecodeEvent} :
    wp1Sync d = .next (d', ev) ↔ d.state = .waitPreamble1 ∧ d' = { d with state := .waitPreamble2 } ∧ ev = none := by
  rw [wp1Sync, guarded_next]
  simp [eq_comm]

theorem wp1Skip_next {b : Byte} {d d' : DecoderState} {ev : Option DecodeEvent} :
    wp1Skip b d = .next (d', ev) ↔ d.state = .waitPreamble1 ∧ b ≠ 0xAA#8 ∧ d' = d ∧ ev = none := by
  rw [wp1Skip, guarded_next, answer_next]
  simp [isPreamble1, and_assoc]

theorem wp2Lock_next {d d' : DecoderState} {ev : Option DecodeEvent} :
    wp2Lock d = .next (d', ev) ↔ d.state = .waitPreamble2 ∧ d' = { d with state := .readVersion } ∧ ev = none := by
  rw [wp2Lock, guarded_next]
  simp [eq_comm]

theorem wp2Hold_next {d d' : DecoderState} {ev : Option DecodeEvent} :
    wp2Hold d = .next (d', ev) ↔ d.state = .waitPreamble2 ∧ d' = d ∧ ev = none := by
  rw [wp2Hold, guarded_next]
  simp [eq_comm]

theorem wp2Miss_next {b : Byte} {d d' : DecoderState} {ev : Option DecodeEvent} :
    wp2Miss b d = .next (d', ev) ↔
      d.state = .waitPreamble2 ∧ b ≠ 0x55#8 ∧ b ≠ 0xAA#8 ∧ d' = { d with state := .waitPreamble1 } ∧ ev = none := by
  rw [wp2Miss, guarded_next, answer_next]
  simp [isPreamble1, isPreamble2, and_assoc]

theorem rdver_next {b : Byte} {d d' : DecoderState} {ev : Option DecodeEvent} :
    rdver b d = .next (d', ev) ↔
      d.state = .readVersion ∧ d' = { d with version := b, acc := b, state := .readType } ∧ ev = none := by
  rw [rdver, guarded_next]
  simp [eq_comm]

theorem rdtype_next {b : Byte} {d d' : DecoderState} {ev : Option DecodeEvent} :
    rdtype b d = .next (d', ev) ↔
      d.state = .readType ∧ d' = { d with typ := b, acc := d.acc + b, state := .readId } ∧ ev = none := by
  rw [rdtype, guarded_next]
  simp [accumulate, eq_comm]

theorem rdid_next {b : Byte} {d d' : DecoderState} {ev : Option DecodeEvent} :
    rdid b d = .next (d', ev) ↔
      d.state = .readId ∧ d' = { d with id := b, acc := d.acc + b, state := .readLen } ∧ ev = none := by
  rw [rdid, guarded_next]
  simp [accumulate, eq_comm]

theorem rdlenZero_next {d d' : DecoderState} {ev : Option DecodeEvent} :
    rdlenZero d = .next (d', ev) ↔
      d.state = .readLen ∧ d' = { d with len := 0, state := .readChecksum } ∧ ev = none := by
  rw [rdlenZero, guarded_next]
  simp [accumulate, eq_comm]

theorem rdlenOver_next {b : Byte} {d d' : DecoderState} {ev : Option DecodeEvent} :
    rdlenOver b d = .next (d', ev) ↔
      d.state = .readLen ∧ 128 < b.toNat ∧ d' = DecoderState.reset ∧ ev = none := by
  rw [rdlenOver, guarded_next, answer_next]
  simp [lengthOver, Config.maxPayload, and_assoc]

theorem rdlenData_next {b : Byte} {d d' : DecoderState} {ev : Option DecodeEvent} :
    rdlenData b d = .next (d', ev) ↔
      d.state = .readLen ∧ 1 ≤ b.toNat ∧ b.toNat ≤ 128 ∧
        d' = { d with len := b, acc := d.acc + b, cur := 0, pbuf := [], state := .readPayload } ∧ ev = none := by
  rw [rdlenData, guarded_next, answer_next]
  simp [lengthData, Config.maxPayload, accumulate, and_assoc]

/-- The store both payload rows share. -/
theorem storePayloadByte_iff {b : Byte} {next : StateTag} {d d' : DecoderState} {ev : Option DecodeEvent} :
    storePayloadByte b next d = .next (d', ev) ↔
      d.cur.toNat < Config.maxPayload ∧
        d' = { d with pbuf := d.pbuf.write d.cur.toNat b, cur := d.cur + 1, acc := d.acc + b, state := next } ∧
        ev = none := by
  by_cases h : d.cur.toNat < Config.maxPayload
  · rw [storePayloadByte_next b next d h]
    simp [h, eq_comm]
  · simp [storePayloadByte, memWrite, h]

theorem rdpayMore_next {b : Byte} {d d' : DecoderState} {ev : Option DecodeEvent} :
    rdpayMore b d = .next (d', ev) ↔
      d.state = .readPayload ∧ d.cur.toNat + 1 < d.len.toNat ∧ d.cur.toNat < Config.maxPayload ∧
        d' = { d with pbuf := d.pbuf.write d.cur.toNat b, cur := d.cur + 1, acc := d.acc + b, state := .readPayload } ∧
        ev = none := by
  rw [rdpayMore, guarded_next, storePayloadByte_iff]
  simp only [payloadMore, decide_eq_true_eq, and_assoc]

theorem rdpayLast_next {b : Byte} {d d' : DecoderState} {ev : Option DecodeEvent} :
    rdpayLast b d = .next (d', ev) ↔
      d.state = .readPayload ∧ d.cur.toNat + 1 = d.len.toNat ∧ d.cur.toNat < Config.maxPayload ∧
        d' = { d with pbuf := d.pbuf.write d.cur.toNat b, cur := d.cur + 1, acc := d.acc + b, state := .readChecksum } ∧
        ev = none := by
  rw [rdpayLast, guarded_next, storePayloadByte_iff]
  simp only [payloadLast, decide_eq_true_eq, and_assoc]

theorem rdcsumOk_next {b : Byte} {d d' : DecoderState} {ev : Option DecodeEvent} :
    rdcsumOk b d = .next (d', ev) ↔
      d.state = .readChecksum ∧ b = d.acc ∧
        ∃ f, captureFrame d b = .ok f ∧ d' = DecoderState.reset ∧ ev = some (.frameReady f) := by
  rw [rdcsumOk, guarded_next]
  cases captureFrame d b with
  | error f => simp
  | ok f =>
    simp only [answer_next]
    simp [checksumEqual, and_assoc]

theorem rdcsumBad_next {b : Byte} {d d' : DecoderState} {ev : Option DecodeEvent} :
    rdcsumBad b d = .next (d', ev) ↔
      d.state = .readChecksum ∧ b ≠ d.acc ∧ d' = DecoderState.reset ∧ ev = some .checksumMismatch := by
  rw [rdcsumBad, guarded_next, answer_next]
  simp [checksumEqual, and_assoc]

theorem badstate_next {b : Byte} {d d' : DecoderState} {ev : Option DecodeEvent} :
    badstate b d = .next (d', ev) ↔ d' = DecoderState.reset ∧ ev = none := by
  simp [badstate, eq_comm]

end Sys2Proof.Machine
end

