-- ==== Sys2Proof/Machine/Display.lean ====
section
/-! DEFINITION. Display forms, outside the hardware, given so that results can be compared with the source's examples
(spec/42_sensor_codec.md R172; spec/43_protocol_engine.md R184). Texts are lists of characters (log entry 15). -/

namespace Sys2Proof.Machine

/-- One hex digit; `HEX_CASE` decides the letters (R172, D25). -/
def hexDigit (c : HexCase) (v : BitVec 4) : Char :=
  match c with
  | .lower => ['0', '1', '2', '3', '4', '5', '6', '7', '8', '9', 'a', 'b', 'c', 'd', 'e', 'f'].getD v.toNat '0'
  | .upper => ['0', '1', '2', '3', '4', '5', '6', '7', '8', '9', 'A', 'B', 'C', 'D', 'E', 'F'].getD v.toNat '0'

/-- Two hex digits, high nibble first. -/
def hexByte (c : HexCase) (b : Byte) : List Char := [hexDigit c (b.extractLsb' 4 4), hexDigit c (b.extractLsb' 0 4)]

/-- The status string: `0x` and two digits (R172). -/
def statusText (c : HexCase) (status : Byte) : List Char := ['0', 'x'] ++ hexByte c status

/-- `payloadHex`: two digits a byte, index order, no separator, no leading `0x` (R184). -/
def payloadHex (c : HexCase) (payload : List Byte) : List Char := payload.flatMap (hexByte c)

/-- One decimal digit. -/
def decDigit (n : Nat) : Char := ['0', '1', '2', '3', '4', '5', '6', '7', '8', '9'].getD (n % 10) '0'

/-- A whole number of at most three digits, without leading zeros. -/
def decWhole (n : Nat) : List Char :=
  if n < 10 then [decDigit n]
  else if n < 100 then [decDigit (n / 10), decDigit n]
  else [decDigit (n / 100), decDigit (n / 10), decDigit n]

/-- Hundredths written with exactly two fractional digits (R172). -/
def hundredthsText (v : Int) : List Char :=
  (if v < 0 then ['-'] else []) ++ decWhole (v.natAbs / 100) ++ ['.', decDigit (v.natAbs / 10), decDigit v.natAbs]

/-- `humidity_pct` as text (R172). -/
def humidityText (h : Hum100) : List Char := hundredthsText h.toNat

/-- `temperature_c` as text (R172). -/
def temperatureText (t : Temp100) : List Char := hundredthsText t.toInt

end Sys2Proof.Machine
end

