-- ==== Sys2Proof/Tests/Slice0.lean ====
section
/-! SUPPORT. Tests: the smoke test of WellFormed, one written-out word for each row, the vectors of
spec/95_test_vectors.md one step each, and a witness for the hypotheses of each statement. -/

namespace Sys2Proof.Tests

open Sys2Proof.Machine

/-! ### Small states -/

/-- A connection with decoder `d`; `SENSOR_TYPE` is 21, the value spec/95_test_vectors.md chooses for its examples. -/
def conn (d : DecoderState) : State :=
  { engine := some d, params := ⟨0x21, .statusLast, .halfUp, .lower⟩, input := [], tx := [], events := [], outputs := [],
    draws := 0 }

/-- The same with the other byte layout (R84). -/
def connFirst : State := { conn DecoderState.reset with params := ⟨0x21, .statusFirst, .halfUp, .lower⟩ }

/-- A decoder in state `t` with all registers 0. -/
def at0 (t : StateTag) : DecoderState := { DecoderState.reset with state := t }

/-- After `AA 55 01 10 0A`. -/
def dLen : DecoderState := ⟨.readLen, 0x01, 0x10, 0x0A, 0, 0x1B, 0, []⟩
/-- After the length byte 02. -/
def dPay : DecoderState := ⟨.readPayload, 0x01, 0x10, 0x0A, 2, 0x1D, 0, []⟩
/-- After the payload byte 1A. -/
def dPay1 : DecoderState := ⟨.readPayload, 0x01, 0x10, 0x0A, 2, 0x37, 1, [(0, 0x1A)]⟩
/-- After the payload bytes 1A 2B. -/
def dSum : DecoderState := ⟨.readChecksum, 0x01, 0x10, 0x0A, 2, 0x62, 2, [(0, 0x1A), (1, 0x2B)]⟩

/-- The decoder an operation leaves. -/
def left (r : Result) : Option DecoderState := (nextOf r).bind State.engine

/-- The events an operation leaves. -/
def raised (r : Result) : Option (List Event) := (nextOf r).map State.events
/-- The outputs an operation leaves. -/
def emitted (r : Result) : Option (List Output) := (nextOf r).map State.outputs

/-- A reading without its timestamp ("timestamp excluded from equality checks", R191). -/
def untimed : Output → Output
  | .sensorReading v _ => .sensorReading v 0
  | o => o

/-- The TX bytes an operation leaves. -/
def sent (r : Result) : Option (List Byte) := (nextOf r).map State.tx

/-! ### WellFormed: each check refuses an ill-formed term (R80, R143) -/

theorem test_wf_wp1Skip_AA : (Instr.wp1Skip 0xAA).wellFormed = false := by decide
theorem test_wf_wp2Miss_55 : (Instr.wp2Miss 0x55).wellFormed = false := by decide
theorem test_wf_wp2Miss_AA : (Instr.wp2Miss 0xAA).wellFormed = false := by decide
theorem test_wf_rdlenOver_128 : (Instr.rdlenOver 0x80).wellFormed = false := by decide
theorem test_wf_rdlenData_0 : (Instr.rdlenData 0x00).wellFormed = false := by decide
theorem test_wf_rdlenData_129 : (Instr.rdlenData 0x81).wellFormed = false := by decide
theorem test_wf_encode_129 : (Instr.encode 0x10 0x0A (List.replicate 129 0)).wellFormed = false := by
  simp [Instr.wellFormed, Config.maxPayload]
theorem test_wf_sendcmd_129 : (Instr.sendcmd 0x10 0x0A (List.replicate 129 0) true).wellFormed = false := by
  simp [Instr.wellFormed, Config.maxPayload]
theorem test_wf_boundaries : (Instr.rdlenOver 0x81).wellFormed && (Instr.rdlenData 0x80).wellFormed &&
    (Instr.rdlenData 0x01).wellFormed && (Instr.encode 0 0 (List.replicate 128 0)).wellFormed = true := by
  simp [Instr.wellFormed, Config.maxPayload]

/-! ### Words written out from R79 and R80: state code in bits 10..8, byte in bits 7..0, comparison in bit 11 -/

theorem test_word_wp1Sync : decodeWord 0b0000_0_000_10101010#16 = .ok .wp1Sync := by decide
theorem test_word_wp1Skip : decodeWord 0b0000_0_000_10101011#16 = .ok (.wp1Skip 0xAB) := by decide
theorem test_word_wp2Lock : decodeWord 0b0000_0_001_01010101#16 = .ok .wp2Lock := by decide
theorem test_word_wp2Hold : decodeWord 0b0000_0_001_10101010#16 = .ok .wp2Hold := by decide
theorem test_word_wp2Miss : decodeWord 0b0000_0_001_01010110#16 = .ok (.wp2Miss 0x56) := by decide
theorem test_word_rdver : decodeWord 0b0000_0_010_01111111#16 = .ok (.rdver 0x7F) := by decide
theorem test_word_rdtype : decodeWord 0b0000_0_011_00100000#16 = .ok (.rdtype 0x20) := by decide
theorem test_word_rdid : decodeWord 0b0000_0_100_11111111#16 = .ok (.rdid 0xFF) := by decide
theorem test_word_rdlenZero : decodeWord 0b0000_0_101_00000000#16 = .ok .rdlenZero := by decide
theorem test_word_rdlenOver : decodeWord 0b0000_0_101_10000001#16 = .ok (.rdlenOver 0x81) := by decide
theorem test_word_rdlenData : decodeWord 0b0000_0_101_10000000#16 = .ok (.rdlenData 0x80) := by decide
theorem test_word_rdpayMore : decodeWord 0b0000_0_110_00011010#16 = .ok (.rdpayMore 0x1A) := by decide
theorem test_word_rdpayLast : decodeWord 0b0000_1_110_00101011#16 = .ok (.rdpayLast 0x2B) := by decide
theorem test_word_rdcsumOk : decodeWord 0b0000_1_111_01100010#16 = .ok (.rdcsumOk 0x62) := by decide
theorem test_word_rdcsumBad : decodeWord 0b0000_0_111_01100011#16 = .ok (.rdcsumBad 0x63) := by decide
theorem test_word_reserved : decodeWord 0x1000#16 = .error .reservedBits := by decide
theorem test_word_comparison_not_tested : decodeWord 0b0000_1_101_00000010#16 = .error .comparisonNotTested := by decide
theorem test_encode_rows : encode (.wp2Miss 0x54) = some 0x154#16 ∧ encode (.rdpayLast 0x2B) = some 0xE2B#16 ∧
    encode (.rdcsumOk 0x62) = some 0xF62#16 ∧ encode (.feed [0xAA]) = none := by decide

/-- The interface the host asks through: a table word is what the first step after reset runs. -/
theorem test_withFetchWord_rdver : left (step (State.reset.withFetchWord 16 0x27F)) =
    some ⟨.readType, 0x7F, 0, 0, 0, 0x7F, 0, []⟩ := by decide
theorem test_withFetchWord_rdcsumBad : left (step (State.reset.withFetchWord 16 0x700)) =
    some DecoderState.reset := by decide

/-! ### One step a row: spec/95_test_vectors.md section 2.1 -/

theorem test_V_RX_1 : left (exec .wp1Sync (conn (at0 .waitPreamble1))) = some (at0 .waitPreamble2) := by decide
theorem test_V_RX_2 : left (exec (.wp1Skip 0x55) (conn (at0 .waitPreamble1))) = some (at0 .waitPreamble1) := by decide
theorem test_V_RX_3 : left (exec .wp2Lock (conn (at0 .waitPreamble2))) = some (at0 .readVersion) := by decide
theorem test_V_RX_4 : left (exec .wp2Hold (conn (at0 .waitPreamble2))) = some (at0 .waitPreamble2) := by decide
theorem test_V_RX_5 : left (exec (.wp2Miss 0x54) (conn (at0 .waitPreamble2))) = some (at0 .waitPreamble1) := by decide
theorem test_V_RX_6 : left (exec (.rdver 0x7F) (conn (at0 .readVersion))) =
    some { at0 .readType with version := 0x7F, acc := 0x7F } := by decide
theorem test_V_RX_7 : left (exec (.rdtype 0x20) (conn { at0 .readType with version := 0xF0, acc := 0xF0 })) =
    some { at0 .readId with version := 0xF0, typ := 0x20, acc := 0x10 } := by decide
theorem test_V_RX_8 : left (exec (.rdid 0xFF) (conn { at0 .readId with acc := 0x10 })) =
    some { at0 .readLen with id := 0xFF, acc := 0x0F } := by decide
theorem test_V_RX_9 : left (exec .rdlenZero (conn { at0 .readLen with acc := 0x0F })) =
    some { at0 .readChecksum with acc := 0x0F } := by decide
theorem test_V_RX_10 : left (exec (.rdlenOver 0x81) (conn dLen)) = some (at0 .waitPreamble1) ∧
    raised (exec (.rdlenOver 0x81) (conn dLen)) = some [] := by decide
theorem test_V_RX_12 : left (exec (.rdlenData 0x80) (conn dLen)) =
    some { dLen with state := .readPayload, len := 0x80, acc := 0x9B } := by decide
theorem test_V_RX_13a : left (exec (.rdpayMore 0x1A) (conn dPay)) = some dPay1 := by decide
theorem test_V_RX_13b : left (exec (.rdpayLast 0x2B) (conn dPay1)) = some dSum := by decide
theorem test_V_RX_13c : left (exec (.rdpayLast 0x01) (conn { at0 .readPayload with len := 1, acc := 0xFF })) =
    some { at0 .readChecksum with len := 1, cur := 1, acc := 0, pbuf := [(0, 0x01)] } := by decide
theorem test_V_RX_15 : left (exec (.rdcsumOk 0x62) (conn dSum)) = some (at0 .waitPreamble1) ∧
    raised (exec (.rdcsumOk 0x62) (conn dSum)) =
      some [.decode (.frameReady ⟨0x01, 0x10, 0x0A, 2, [0x1A, 0x2B], 0x62⟩)] := by decide
theorem test_V_RX_15b : left (exec (.rdcsumBad 0x63) (conn dSum)) = some (at0 .waitPreamble1) ∧
    raised (exec (.rdcsumBad 0x63) (conn dSum)) = some [.decode .checksumMismatch] := by decide
theorem test_badstate : left (exec (.badstate 0xAA) (conn dSum)) = some (at0 .waitPreamble1) := by decide

/-! ### Chunks: section 2.2 and 2.3, and programs P5 and P6 -/

/-- V-RX-11: a length byte AA aborts and is no preamble. -/
theorem test_V_RX_11 : feed DecoderState.reset [0xAA, 0x55, 0x01, 0x10, 0x0A, 0xAA, 0x55, 0x01, 0x23, 0x05, 0x00, 0x29] =
    .next (DecoderState.reset, []) := by rfl
/-- V-RX-23: a frame cut short stays in the decoder. -/
theorem test_V_RX_23 : left (exec (.feed [0xAA, 0x55, 0x01, 0x10, 0x0A, 0x02, 0x1A]) (conn DecoderState.reset)) =
    some dPay1 := by rfl
/-- P5's first frame: the notification, then the reading with any timestamp. -/
theorem test_P5_onbytes : (emitted (exec
      (.onbytes [0xAA, 0x55, 0x01, 0x21, 0x07, 0x06, 0x80, 0x00, 0x08, 0x00, 0x00, 0x01, 0xB8]) (conn DecoderState.reset))).map
        (List.map untimed) =
    some [.frameReceived 0x01 0x21 0x07 6 [0x80, 0x00, 0x08, 0x00, 0x00, 0x01],
      .sensorReading ⟨5000, 5000, 0x01⟩ 0] := by decide +kernel
/-- P5's second frame: a short sensor frame. -/
theorem test_P5_short : emitted (exec
      (.onbytes [0xAA, 0x55, 0x01, 0x21, 0x08, 0x03, 0x01, 0x02, 0x03, 0x33]) (conn DecoderState.reset)) =
    some [.frameReceived 0x01 0x21 0x08 3 [0x01, 0x02, 0x03], .insufficientPayload] := by rfl
/-- P6: a reconnect in mid-frame, and the teardown. -/
theorem test_P6_connect : left (exec .connect (conn dPay1)) = some DecoderState.reset := by decide
theorem test_P6_teardown : left (exec .teardown (conn dPay1)) = none := by decide
/-- The example of R188, accepted and rejected. -/
theorem test_R188_accepted : sent (exec (.sendcmd 0x10 0x0A [0x1A, 0x2B] true) (conn dPay1)) =
    some [0xAA, 0x55, 0x01, 0x10, 0x0A, 0x02, 0x1A, 0x2B, 0x62] ∧
    emitted (exec (.sendcmd 0x10 0x0A [0x1A, 0x2B] true) (conn dPay1)) = some [.ret .accepted] := by decide
theorem test_P6_rejected : sent (exec (.sendcmd 0x11 0x01 [] false) (conn dPay1)) = some [] ∧
    emitted (exec (.sendcmd 0x11 0x01 [] false) (conn dPay1)) = some [.ret .unavailable] := by decide

/-! ### Encoder, codec, displays: sections 3, 4 and 5 -/

/-- V-TX-1 and V-TX-4. -/
theorem test_V_TX_1 : encodeFrame 0x10 0x0A [0x1A, 0x2B] = [0xAA, 0x55, 0x01, 0x10, 0x0A, 0x02, 0x1A, 0x2B, 0x62] := by
  decide
theorem test_V_TX_4 : encodeFrame 0x10 (-1) [] = [0xAA, 0x55, 0x01, 0x10, 0xFF, 0x00, 0x10] := by decide
/-- V-SD-4: the shared byte. -/
theorem test_V_SD_4 : emitted (exec (.sensdec [0x12, 0x34, 0x56, 0x78, 0x9A, 0xBC]) (conn DecoderState.reset)) =
    some [.ret (.sensorValues ⟨711, 3089, 0xBC⟩)] := by decide +kernel
/-- The `status_first` vector of section 4. -/
theorem test_status_first : emitted (exec (.sensdec [0x5A, 0x12, 0x34, 0x56, 0x78, 0x9A]) connFirst) =
    some [.ret (.sensorValues ⟨711, 3089, 0x5A⟩)] := by decide +kernel
/-- The least ties of R173. -/
theorem test_ties : ((temp100 .halfUp 0x04000).toInt, (temp100 .halfAway 0x04000).toInt,
    (temp100 .halfEven 0x04000).toInt) = (-4687, -4688, -4688) := by rfl
/-- S2's display strings, V-SD-2's letters, and `payloadHex` of R184. -/
theorem test_displays : humidityText 0 = "0.00".toList ∧ temperatureText (BitVec.ofInt 15 (-5000)) = "-50.00".toList ∧
    statusText .lower 0xFF = "0xff".toList ∧ payloadHex .lower [0x1A, 0x2B] = "1a2b".toList := by decide
/-- The event codes of R200. -/
theorem test_eventCodes : eventCode none = 0 ∧ eventCode (some (.decode .checksumMismatch)) = 2 ∧
    eventCode (some .insufficientPayload) = 3 := by decide

/-! ### Invariant states -/

theorem inv_of_feed (d d' : DecoderState) (bs : List Byte) (evs : List DecodeEvent) (hi : d.Inv)
    (h : feed d bs = .next (d', evs)) : d'.Inv := by
  obtain ⟨d2, evs2, h2, hi2, -⟩ := feed_inv d bs hi
  rw [h] at h2
  simp only [Host.Outcome.next.injEq, Prod.mk.injEq] at h2
  rw [h2.1]
  exact hi2

theorem dLen_inv : dLen.Inv :=
  inv_of_feed _ _ [0xAA, 0x55, 0x01, 0x10, 0x0A] [] decoderReset_inv rfl
theorem dPay_inv : dPay.Inv := inv_of_feed _ _ [0x02] [] dLen_inv rfl
theorem dPay1_inv : dPay1.Inv := inv_of_feed _ _ [0x1A] [] dPay_inv rfl
theorem dSum_inv : dSum.Inv := inv_of_feed _ _ [0x2B] [] dPay1_inv rfl

/-- A connection that has emitted nothing meets the machine invariant when its decoder does. -/
theorem conn_inv (d : DecoderState) (h : d.Inv) : (conn d).Inv := by
  refine ⟨?_, ?_, ?_⟩
  · intro d' hd
    simp only [conn, Option.some.injEq] at hd
    exact hd ▸ h
  · simp [conn]
  · simp [conn]

/-! ### Witnesses: for each statement with hypotheses, states and operands that meet them -/

/-- WaitPreamble1SyncsOrSkips: the bytes on both sides of AA, and a chunk without AA. -/
theorem witness_WaitPreamble1SyncsOrSkips :
    (conn (at0 .waitPreamble1)).engine = some (at0 .waitPreamble1) ∧ (at0 .waitPreamble1).state = .waitPreamble1 ∧
      0xA9#8 ≠ 0xAA#8 ∧ 0xAB#8 ≠ 0xAA#8 ∧
      (conn DecoderState.reset).engine = some DecoderState.reset ∧ ∀ b ∈ [0x55#8, 0xA9#8, 0xAB#8], b ≠ 0xAA#8 := by
  decide

/-- WaitPreamble2LocksHoldsOrMisses: the bytes next to 55 and AA. -/
theorem witness_WaitPreamble2LocksHoldsOrMisses :
    (conn (at0 .waitPreamble2)).engine = some (at0 .waitPreamble2) ∧ (at0 .waitPreamble2).state = .waitPreamble2 ∧
      (∀ b ∈ [0x54#8, 0x56#8, 0xA9#8, 0xAB#8], b ≠ 0x55#8 ∧ b ≠ 0xAA#8) ∧
      (conn DecoderState.reset).engine = some DecoderState.reset := by
  decide

/-- HeaderBytesAreCaptured: a decoder in each of the three states. -/
theorem witness_HeaderBytesAreCaptured :
    ((conn (at0 .readVersion)).engine = some (at0 .readVersion) ∧ (at0 .readVersion).state = .readVersion) ∧
      ((conn (at0 .readType)).engine = some (at0 .readType) ∧ (at0 .readType).state = .readType) ∧
      (conn (at0 .readId)).engine = some (at0 .readId) ∧ (at0 .readId).state = .readId := by
  decide

/-- LegalLengthsAreAccepted: an invariant decoder in `ReadLen`, and both ends of 1 to 128. -/
theorem witness_LegalLengthsAreAccepted :
    (conn dLen).engine = some dLen ∧ dLen.state = .readLen ∧ dLen.Inv ∧
      ∀ b ∈ [0x01#8, 0x80#8], 1 ≤ b.toNat ∧ b.toNat ≤ 128 :=
  ⟨rfl, rfl, dLen_inv, by decide⟩

/-- OversizedLengthAbandonsSilently: both ends of 129 to 255. -/
theorem witness_OversizedLengthAbandonsSilently :
    (conn dLen).engine = some dLen ∧ dLen.state = .readLen ∧ ∀ b ∈ [0x81#8, 0xFF#8], 129 ≤ b.toNat := by
  decide

/-- PayloadBytesAreStored: a byte that is not the last, and the 128th of 128. -/
theorem witness_PayloadBytesAreStored :
    ((conn dPay).engine = some dPay ∧ dPay.state = .readPayload ∧ dPay.cur.toNat < 128 ∧
      dPay.cur.toNat + 1 < dPay.len.toNat) ∧
    ∃ d : DecoderState, (conn d).engine = some d ∧ d.state = .readPayload ∧ d.cur.toNat < 128 ∧
      d.cur.toNat + 1 = d.len.toNat ∧ d.cur.toNat = 127 :=
  ⟨by decide, { dPay with len := 128, cur := 127 }, by decide⟩

/-- MatchingChecksumEmitsTheFrame: an invariant decoder that waits for the checksum 62. -/
theorem witness_MatchingChecksumEmitsTheFrame :
    (conn dSum).engine = some dSum ∧ dSum.Inv ∧ dSum.state = .readChecksum ∧ 0x62#8 = dSum.acc :=
  ⟨rfl, dSum_inv, rfl, rfl⟩

/-- WrongChecksumDropsTheFrame: the bytes next to the expected one. -/
theorem witness_WrongChecksumDropsTheFrame :
    (conn dSum).engine = some dSum ∧ dSum.state = .readChecksum ∧ 0x61#8 ≠ dSum.acc ∧ 0x63#8 ≠ dSum.acc := by
  decide

/-- FallbackClearsTheDecoder: any connection. -/
theorem witness_FallbackClearsTheDecoder : (conn dSum).engine = some dSum := rfl

/-- One receive step that goes on in each decoder state, both ways where the state has two successors. -/
def rxSteps : List (DecoderState × Instr) :=
  [(at0 .waitPreamble1, .wp1Sync), (at0 .waitPreamble1, .wp1Skip 0xAB#8), (at0 .waitPreamble2, .wp2Lock),
    (at0 .waitPreamble2, .wp2Hold), (at0 .waitPreamble2, .wp2Miss 0x54#8), (at0 .readVersion, .rdver 0xFF#8),
    (at0 .readType, .rdtype 0xFF#8), (at0 .readId, .rdid 0xFF#8), (dLen, .rdlenZero), (dLen, .rdlenOver 0x81#8),
    (dLen, .rdlenData 0x80#8), (dPay, .rdpayMore 0x1A#8), (dPay1, .rdpayLast 0x2B#8), (dSum, .rdcsumOk 0x62#8),
    (dSum, .rdcsumBad 0x63#8)]

/-- TransitionGraphIsComplete, OnlyChecksumStepsRaiseEvents and the receive rows of OperationsKeepTheOtherFields: each
of these steps carries a byte and goes on with a decoder. -/
theorem witness_TransitionGraphIsComplete : ∀ p ∈ rxSteps, (conn p.1).engine = some p.1 ∧ p.2.rxByte.isSome = true ∧
    (left (exec p.2 (conn p.1))).isSome = true := by
  decide

/-- ExactlyOneTransitionApplies. -/
theorem witness_ExactlyOneTransitionApplies : (conn dPay1).engine = some dPay1 ∧ dPay1.Inv := ⟨rfl, dPay1_inv⟩

/-- ReceiveStepsKeepTheOtherRegisters, a payload step of it: an invariant decoder, a next state, its decoder. -/
theorem witness_ReceiveStepsKeepTheOtherRegisters :
    ∃ (t : State) (d' : DecoderState), (conn dPay1).engine = some dPay1 ∧ dPay1.Inv ∧
      exec (.rdpayLast 0x2B) (conn dPay1) = .next t ∧ t.engine = some d' :=
  ⟨conn dSum, dSum, rfl, dPay1_inv, rfl, rfl⟩

/-- PayloadBufferReadsBackWrites: both ends of 0 to 127, on a canonical buffer. -/
theorem witness_PayloadBufferReadsBackWrites : 0 ≤ 127 ∧ 127 ≤ 127 ∧ Memory.wf [(0, 0x1A), (127, 0x2B)] = true := by
  decide

/-- FeedAndOnbytesComplete. -/
theorem witness_FeedAndOnbytesComplete : (conn dPay).engine = some dPay ∧ dPay.Inv := ⟨rfl, dPay_inv⟩

/-- ChunkBoundariesDoNotMatter: a first part that goes on, for FEED and for ONBYTES. -/
theorem witness_ChunkBoundariesDoNotMatter :
    exec (.feed [0x1A]) (conn dPay) = .next (conn dPay1) ∧ exec (.onbytes [0x1A]) (conn dPay) = .next (conn dPay1) :=
  ⟨rfl, rfl⟩

/-- EventsAreSevenBytesApart: the first byte of a chunk completes a frame. -/
theorem witness_EventsAreSevenBytesApart :
    dSum.Inv ∧ feed dSum [0x63] = .next (DecoderState.reset, [.checksumMismatch]) ∧ [0x63#8] ≠ [] :=
  ⟨dSum_inv, rfl, by decide⟩

/-- OnbytesIsItsBytesOneByOne: two pending bytes, then a call. -/
theorem witness_OnbytesIsItsBytesOneByOne :
    ∃ s : State, s.Inv ∧ s.engine ≠ none ∧
      s.input = ([0x1A#8, 0x2B#8]).map Input.byte ++ [Input.call .teardown] :=
  ⟨{ conn dPay with input := [.byte 0x1A, .byte 0x2B, .call .teardown] },
    ⟨(conn_inv dPay dPay_inv).decoder, (conn_inv dPay dPay_inv).events, (conn_inv dPay dPay_inv).outputs⟩,
    by simp [conn], rfl⟩

/-- EncodeBuildsTheFrame and SendcmdOffersTheWholeFrame: the empty and the longest payload. -/
theorem witness_EncodeBuildsTheFrame :
    ([] : List Byte).length ≤ 128 ∧ (List.replicate 128 (0 : Byte)).length ≤ 128 := by
  simp

/-- EncodedLengthIsSevenMore. -/
theorem witness_EncodedLengthIsSevenMore : ∃ t : State, exec (.encode 0x10 0x0A [0x1A]) (conn dLen) = .next t := ⟨_, rfl⟩

/-- LongPayloadIsRefused: the shortest payload that is too long. -/
theorem witness_LongPayloadIsRefused : 128 < (List.replicate 129 (0 : Byte)).length := by simp

/-- ChecksumProperties: a reordering, and a changed byte. -/
theorem witness_ChecksumProperties :
    List.Perm [0x01#8, 0x10#8] [0x10#8, 0x01#8] ∧ 1 < [0x01#8, 0x10#8].length ∧ [0x01#8, 0x10#8][1]? ≠ some 0x11#8 :=
  ⟨List.Perm.swap _ _ _, by decide, by decide⟩

/-- ShortSensorPayloadIsReported: the empty payload and five bytes. -/
theorem witness_ShortSensorPayloadIsReported :
    ([] : List Byte).length < 6 ∧ [0x80#8, 0x00#8, 0x08#8, 0x00#8, 0x00#8].length < 6 := by
  decide

/-- RoundingIsToNearest: a tie, below zero and above. -/
theorem witness_RoundingIsToNearest : 0 < 2 ∧ 2 * ((-3 : Int) % (2 : Nat)) = (2 : Nat) ∧
    2 * ((3 : Int) % (2 : Nat)) = (2 : Nat) := by
  decide

/-- SensorValuesStayInRange: the values on both sides of each threshold. -/
theorem witness_SensorValuesStayInRange : (0xFFFCB#20).toNat ≤ (0xFFFCC#20).toNat ∧
    (0xFFFE5#20).toNat ≤ (0xFFFE6#20).toNat := by
  decide

/-- TieRulesDifferOnlyAtTheTies: a value that is no tie, the first and the last negative tie, and the least ties. -/
theorem witness_TieRulesDifferOnlyAtTheTies :
    (¬ ∃ k : Nat, (0x00001#20).toNat = 0x08000 + k * 0x10000) ∧ (¬ ∃ k : Nat, (0x00001#20).toNat = 0x04000 + k * 0x08000) ∧
    (0x04000#20).toNat = 0x04000 + 0 * 0x08000 ∧ (0x3C000#20).toNat = 0x04000 + 7 * 0x08000 ∧
    (0x08000#20).toNat = 0x08000 := by
  refine ⟨?_, ?_, by decide, by decide, by decide⟩
  · rintro ⟨k, h⟩
    simp at h
    omega
  · rintro ⟨k, h⟩
    simp at h
    omega

/-- DispatchOfDecodeEvents: valid frames of the sensor type with five and with six payload bytes, and of another type. -/
theorem witness_DispatchOfDecodeEvents :
    (Frame.valid ⟨1, 0x21, 0, 5, [0, 0, 0, 0, 0], 0x27⟩ ∧ (0x21 : Byte) = (conn dLen).params.sensorType ∧
      (5 : Byte).toNat < 6) ∧
    (Frame.valid ⟨1, 0x21, 0, 6, [0, 0, 0, 0, 0, 0], 0x28⟩ ∧ 6 ≤ (6 : Byte).toNat) ∧
    Frame.valid ⟨1, 0x22, 0, 0, [], 0x23⟩ ∧ (0x22 : Byte) ≠ (conn dLen).params.sensorType :=
  ⟨⟨⟨rfl, by decide, rfl⟩, rfl, by decide⟩, ⟨⟨rfl, by decide, rfl⟩, by decide⟩, ⟨rfl, by decide, rfl⟩, by decide⟩

/-- OnbytesWithoutConnectionIsRefused. -/
theorem witness_OnbytesWithoutConnectionIsRefused : State.powerOn.engine = none := rfl

/-- DirectionsAreIndependent. -/
theorem witness_DirectionsAreIndependent :
    ∃ a b : State, exec (.onbytes [0x1A]) (conn dPay) = .next a ∧
      exec (.sendcmd 0x10 0x0A [0x1A, 0x2B] true) (conn dPay) = .next b :=
  ⟨_, _, rfl, rfl⟩

/-- OperationsKeepTheOtherFields: each of its groups goes on somewhere (the receive rows above). -/
theorem witness_OperationsKeepTheOtherFields :
    ∀ i ∈ [Instr.badstate 0, .feed [0x1A], .onbytes [0x1A], .encode 0 0 [], .sensdec [], .sendcmd 0 0 [] true, .connect,
      .teardown], (nextOf (exec i (conn dPay))).isSome = true := by
  decide

/-- StepKeepsTheInvariant and the first clause of NothingIsFatal. -/
theorem witness_StepKeepsTheInvariant :
    ∃ t : State, (conn dPay).Inv ∧ (conn dPay).refusedMove = none ∧ step (conn dPay) = .next t :=
  ⟨conn dPay, conn_inv dPay dPay_inv, rfl, rfl⟩

/-- NothingIsFatal, second clause: a byte without a connection, and the shortest payload that is too long. -/
theorem witness_NothingIsFatal :
    (∃ s : State, s.Inv ∧ s.refusedMove = some .noConnection) ∧
    ∃ s : State, s.Inv ∧ s.refusedMove = some .payloadTooLong :=
  ⟨⟨{ State.powerOn with input := [.byte 0xAA] },
      ⟨by simp [State.powerOn], by simp [State.powerOn], by simp [State.powerOn]⟩, rfl⟩,
    ⟨{ State.powerOn with input := [.call (.sendcmd 0x10 0x0A (List.replicate 129 0) true)] },
      ⟨by simp [State.powerOn], by simp [State.powerOn], by simp [State.powerOn]⟩,
      by simp [State.refusedMove, Config.maxPayload]⟩⟩

/-- StepRunsTheSelectedOperation: no input, a call, and a byte whose row goes on. -/
theorem witness_StepRunsTheSelectedOperation :
    (conn dPay1).input = [] ∧
    ({ conn dPay1 with input := [.call .teardown] } : State).input = [.call .teardown] ∧
    ({ conn dPay1 with input := [.byte 0x2B] } : State).input = .byte 0x2B :: [] ∧
    registerComparison dPay1 0x2B = some true ∧
    decodeWord (selectorWord true dPay1.state 0x2B) = .ok (.rdpayLast 0x2B) ∧
    exec (.rdpayLast 0x2B) { conn dPay1 with input := [] } = .next (conn dSum) :=
  ⟨rfl, rfl, rfl, rfl, by decide, rfl⟩

/-- PlacedWordIsFetched. -/
theorem witness_PlacedWordIsFetched : decodeTableWord 16 0x27F = some (.rdver 0x7F) := by decide

/-- ParametersNeverChange. -/
theorem witness_ParametersNeverChange :
    runSteps 1 { conn dPay with input := [.byte 0x1A] } = .next (conn dPay1) := rfl

/-- StreamsOnlyGrow. -/
theorem witness_StreamsOnlyGrow :
    ∃ (s t : State), step s = .next t ∧ s.input ≠ [] :=
  ⟨{ conn dPay with input := [.byte 0x1A] }, conn dPay1, rfl, by simp⟩

/-- SelectorEncodingIsABijection: a well-formed instruction with a word, a word that decodes, and a selector with the
comparison bit. -/
theorem witness_SelectorEncodingIsABijection :
    (Instr.rdlenData 0x80).wellFormed = true ∧ encode (.rdlenData 0x80) = some 0x580#16 ∧
    decodeWord 0x580#16 = .ok (.rdlenData 0x80) ∧
    (true = true → StateTag.readPayload = .readPayload ∨ StateTag.readPayload = .readChecksum) := by
  decide

/-- EncodedFrameIsDecodedBack: both hunting decoders. -/
theorem witness_EncodedFrameIsDecodedBack :
    ((conn DecoderState.reset).engine = some DecoderState.reset ∧
      (DecoderState.reset = DecoderState.reset ∨ DecoderState.reset = at0 .waitPreamble2)) ∧
    ((conn (at0 .waitPreamble2)).engine = some (at0 .waitPreamble2) ∧
      (at0 .waitPreamble2 = DecoderState.reset ∨
        at0 .waitPreamble2 = { DecoderState.reset with state := .waitPreamble2 })) ∧
    [0x1A#8, 0x2B#8].length ≤ 128 := by
  decide

/-- CorruptedPayloadByteIsDetected: the last payload byte changed. -/
theorem witness_CorruptedPayloadByteIsDetected :
    (conn DecoderState.reset).engine = some DecoderState.reset ∧ [0x1A#8, 0x2B#8].length ≤ 128 ∧
    ([] : List Byte).length ≤ 128 ∧ 1 < [0x1A#8, 0x2B#8].length ∧ [0x1A#8, 0x2B#8][1]? ≠ some 0x2C#8 := by
  decide

end Sys2Proof.Tests
end

/-! PROOFS. The frame decoder (spec/40_frame_decoder.md). A receive row that goes on is the row the opcode map selects
(`transition_fetched`), so one run of a row's transition settles both its selection and its effect
(`row_runs_silently`, `row_runs_with_event`). -/

namespace Sys2Proof.Machine

/-! ### A receive row that goes on is the selected row -/

/-- R119, row by row: the Operands line of a row that goes on is the selection condition of that row. -/
theorem transition_selected {i : Instr} {b : Byte} {d d' : DecoderState} {ev : Option DecodeEvent}
    (hb : i.rxByte = some b) (ht : transition i d = .next (d', ev)) :
    ∃ c, registerComparison d b = some c ∧ selected c d.state b = some i := by
  cases i <;> simp only [Instr.rxByte, Option.some.injEq, reduceCtorEq] at hb <;> subst hb <;>
    simp only [transition] at ht
  case wp1Sync =>
    obtain ⟨hs, -⟩ := wp1Sync_next.1 ht
    exact ⟨false, by simp [registerComparison, hs], by simp [selected, hs]⟩
  case wp1Skip =>
    obtain ⟨hs, hne, -⟩ := wp1Skip_next.1 ht
    exact ⟨false, by simp [registerComparison, hs], by simp [selected, hs, hne]⟩
  case wp2Lock =>
    obtain ⟨hs, -⟩ := wp2Lock_next.1 ht
    exact ⟨false, by simp [registerComparison, hs], by simp [selected, hs]⟩
  case wp2Hold =>
    obtain ⟨hs, -⟩ := wp2Hold_next.1 ht
    exact ⟨false, by simp [registerComparison, hs], by simp [selected, hs, Config.preamble1]⟩
  case wp2Miss =>
    obtain ⟨hs, h55, hAA, -⟩ := wp2Miss_next.1 ht
    exact ⟨false, by simp [registerComparison, hs], by simp [selected, hs, h55, hAA]⟩
  case rdver =>
    obtain ⟨hs, -⟩ := rdver_next.1 ht
    exact ⟨false, by simp [registerComparison, hs], by simp [selected, hs]⟩
  case rdtype =>
    obtain ⟨hs, -⟩ := rdtype_next.1 ht
    exact ⟨false, by simp [registerComparison, hs], by simp [selected, hs]⟩
  case rdid =>
    obtain ⟨hs, -⟩ := rdid_next.1 ht
    exact ⟨false, by simp [registerComparison, hs], by simp [selected, hs]⟩
  case rdlenZero =>
    obtain ⟨hs, -⟩ := rdlenZero_next.1 ht
    exact ⟨false, by simp [registerComparison, hs], by simp [selected, hs]⟩
  case rdlenOver b =>
    obtain ⟨hs, hover, -⟩ := rdlenOver_next.1 ht
    have hne : b ≠ 0#8 := by rintro rfl; simp at hover
    have hlt : 128#8 < b := (lt_iff_128 b).2 hover
    exact ⟨false, by simp [registerComparison, hs], by simp [selected, hs, hne, hlt]⟩
  case rdlenData b =>
    obtain ⟨hs, hlow, hhigh, -⟩ := rdlenData_next.1 ht
    have hne : b ≠ 0#8 := by rintro rfl; simp at hlow
    have hle : ¬ 128#8 < b := fun hlt => Nat.not_lt.2 hhigh ((lt_iff_128 b).1 hlt)
    exact ⟨false, by simp [registerComparison, hs], by rw [hs]; simp only [selected, if_neg hne, if_neg hle]; rfl⟩
  case rdpayMore =>
    obtain ⟨hs, hmore, -⟩ := rdpayMore_next.1 ht
    exact ⟨false, by simp [registerComparison, hs, payloadMore, hmore], by simp [selected, hs]⟩
  case rdpayLast =>
    obtain ⟨hs, hlast, -⟩ := rdpayLast_next.1 ht
    exact ⟨true, by simp [registerComparison, hs, payloadMore, payloadLast, hlast], by simp [selected, hs]⟩
  case rdcsumOk =>
    obtain ⟨hs, heq, -⟩ := rdcsumOk_next.1 ht
    exact ⟨true, by simp [registerComparison, hs, checksumEqual, heq], by simp [selected, hs]⟩
  case rdcsumBad =>
    obtain ⟨hs, hne, -⟩ := rdcsumBad_next.1 ht
    exact ⟨false, by simp [registerComparison, hs, checksumEqual, hne], by simp [selected, hs]⟩

/-- The opcode map selects a receive row that goes on (R80, R119). -/
theorem transition_fetched {i : Instr} {b : Byte} {d d' : DecoderState} {ev : Option DecodeEvent}
    (hb : i.rxByte = some b) (ht : transition i d = .next (d', ev)) : fetchInstr d b = .next i := by
  obtain ⟨c, hc, hi⟩ := transition_selected hb ht
  exact fetchInstr_selected d b c i hc hi

/-- A fetched row carries the received byte. -/
theorem fetchInstr_rxByte {d : DecoderState} {b : Byte} {i : Instr} (h : fetchInstr d b = .next i) :
    i.rxByte = some b := by
  obtain ⟨c, -, hi⟩ := fetchInstr_next d b i h
  exact selected_rxByte c d.state b i hi

/-- A byte step that goes on has fetched a row. -/
theorem byteStep_next {d : DecoderState} {b : Byte} {p : DecoderState × Option DecodeEvent}
    (h : byteStep d b = .next p) : ∃ i, fetchInstr d b = .next i ∧ transition i d = .next p := by
  cases hf : fetchInstr d b with
  | next i => exact ⟨i, rfl, by rw [← byteStep_fetched d b i hf, h]⟩
  | fault r => simp [byteStep, hf] at h
  | refused r => simp [byteStep, hf] at h

/-! ### What a receive row does to the machine -/

/-- The completion of a receive row from that of its transition. -/
theorem exec_rx_of_transition {i : Instr} {b : Byte} {s : State} {d d' : DecoderState} {ev : Option DecodeEvent}
    (hb : i.rxByte = some b) (he : s.engine = some d) (ht : transition i d = .next (d', ev)) :
    exec i s = .next ((s.setEngine (some d')).raise (ev.toList.map Event.decode)) := by
  simp [exec_rx i s b hb, rxApply, he, ht]

/-- What a receive row that goes on has done: it is the selected row, and it ran the byte step on the connection. -/
theorem exec_rx_next {i : Instr} {b : Byte} {s t : State} {d : DecoderState}
    (hb : i.rxByte = some b) (he : s.engine = some d) (hx : exec i s = .next t) :
    ∃ d' ev, fetchInstr d b = .next i ∧ byteStep d b = .next (d', ev) ∧
      t = (s.setEngine (some d')).raise (ev.toList.map Event.decode) := by
  rw [exec_rx i s b hb] at hx
  obtain ⟨d0, d', ev, he0, ht, rfl⟩ := rxApply_next _ s t hx
  obtain rfl : d = d0 := Option.some.inj (he.symm.trans he0)
  have hf := transition_fetched hb ht
  exact ⟨d', ev, hf, by rw [byteStep_fetched d b i hf, ht], rfl⟩

/-- A row without an event: selected, and only the decoder changes. -/
theorem row_runs_silently {i : Instr} {b : Byte} {s : State} {d d' : DecoderState}
    (hb : i.rxByte = some b) (he : s.engine = some d) (ht : transition i d = .next (d', none)) :
    fetchInstr d b = .next i ∧ exec i s = .next { s with engine := some d' } :=
  ⟨transition_fetched hb ht, by rw [exec_rx_of_transition hb he ht]; simp [State.setEngine]⟩

/-- A row that writes nothing: selected, and the machine is as it was. -/
theorem row_runs_unchanged {i : Instr} {b : Byte} {s : State} {d : DecoderState}
    (hb : i.rxByte = some b) (he : s.engine = some d) (ht : transition i d = .next (d, none)) :
    fetchInstr d b = .next i ∧ exec i s = .next s :=
  ⟨transition_fetched hb ht, by rw [exec_rx_of_transition hb he ht]; simp [State.setEngine_self s _ he]⟩

/-- A row with an event: selected, and only the decoder and the event output change. -/
theorem row_runs_with_event {i : Instr} {b : Byte} {s : State} {d d' : DecoderState} {e : DecodeEvent}
    (hb : i.rxByte = some b) (he : s.engine = some d) (ht : transition i d = .next (d', some e)) :
    fetchInstr d b = .next i ∧
      exec i s = .next { s with engine := some d', events := s.events ++ [.decode e] } :=
  ⟨transition_fetched hb ht, exec_rx_of_transition hb he ht⟩

/-! ### Byte arithmetic, and reading a dense buffer -/

/-- `(ACC + BYTE) mod 256` as the 8-bit sum (R122). -/
theorem ofNat_sum_mod (a b : Byte) : BitVec.ofNat 8 ((a.toNat + b.toNat) % 256) = a + b := by
  apply BitVec.eq_of_toNat_eq
  simp

/-- The advanced cursor as the 8-bit sum. -/
theorem ofNat_succ (a : Byte) : BitVec.ofNat 8 (a.toNat + 1) = a + 1 := by
  apply BitVec.eq_of_toNat_eq
  simp

/-- Cells that begin at `a` and follow one another read as the buffer's bytes in order. -/
theorem Memory.read_consecutive (m : Memory) (a k : Nat) (h : m.map Prod.fst = List.range' a m.length) :
    m.read (a + k) = m.bytes[k]? := by
  induction m generalizing a k with
  | nil => simp [Memory.read, Memory.bytes, Memory.unlisted]
  | cons c m ih =>
    obtain ⟨j, v⟩ := c
    simp only [List.map_cons, List.length_cons, List.range'_succ, List.cons.injEq] at h
    obtain ⟨rfl, h⟩ := h
    cases k with
    | zero => simp [Memory.read, Memory.bytes]
    | succ k =>
      have hrest := ih (j + 1) k h
      rw [Nat.add_right_comm, Nat.add_assoc] at hrest
      simpa [Memory.read, Memory.bytes] using hrest

/-- A dense buffer reads at each index as the byte at that place (R28, R56). -/
theorem Memory.read_dense (m : Memory) (n k : Nat) (h : m.map Prod.fst = List.range n) :
    m.read k = m.bytes[k]? := by
  have hl : m.length = n := by simpa using congrArg List.length h
  subst hl
  simpa using Memory.read_consecutive m 0 k (by rw [h, List.range_eq_range'])

/-! ### The invariant and the byte step in one state -/

/-- What the invariant says in `ReadLen`: no payload yet, and `ACC` is the sum of the header bytes (R107 to R110). -/
theorem inv_readLen {d : DecoderState} (hi : d.Inv) (hs : d.state = .readLen) :
    d.cur = 0#8 ∧ d.pbuf = [] ∧ d.acc.toNat = (d.version.toNat + d.typ.toNat + d.id.toNat) % 256 := by
  have hcur : d.cur = 0#8 := by simpa [DecoderState.cursorOk, hs] using hi.cursor
  have hacc : d.acc = cksum [d.version, d.typ, d.id] := by simpa [DecoderState.accOk, hs] using hi.sum
  refine ⟨hcur, by simpa [hcur] using hi.held, ?_⟩
  rw [hacc, cksum_toNat]
  simp [Nat.add_assoc]

/-- What the invariant says in `ReadChecksum`: the buffer holds exactly `LEN` bytes, and `ACC` sums the frame's fields. -/
theorem inv_readChecksum {d : DecoderState} (hi : d.Inv) (hs : d.state = .readChecksum) :
    d.pbuf.map Prod.fst = List.range d.len.toNat ∧
      d.acc = cksum ([d.version, d.typ, d.id, d.len] ++ d.pbuf.bytes) := by
  obtain ⟨-, hcur⟩ : d.len.toNat ≤ Config.maxPayload ∧ d.cur = d.len := by
    simpa [DecoderState.cursorOk, hs] using hi.cursor
  exact ⟨hcur ▸ hi.held, by simpa [DecoderState.accOk, hs] using hi.sum⟩

/-- In `ReadChecksum` a byte step that goes on clears the decoder, whether or not the byte matches (R115, R116). -/
theorem byteStep_readChecksum_next {d d' : DecoderState} {b : Byte} {ev : Option DecodeEvent}
    (hs : d.state = .readChecksum) (h : byteStep d b = .next (d', ev)) : d' = DecoderState.reset := by
  by_cases hb : b = d.acc
  · have hf : fetchInstr d b = .next (.rdcsumOk b) :=
      fetchInstr_selected d b true _ (by simp [registerComparison, hs, checksumEqual, hb]) (by simp [selected, hs])
    rw [byteStep_fetched d b _ hf] at h
    obtain ⟨-, -, f, -, hd, -⟩ := rdcsumOk_next.1 h
    exact hd
  · rw [byteStep_readChecksum_differs d b hs hb, answer_next] at h
    exact h.1

/-- In `ReadPayload` a byte step that goes on moves to the checksum exactly at the last byte (R113, R114). -/
theorem byteStep_readPayload_next {d d' : DecoderState} {b : Byte} {ev : Option DecodeEvent}
    (hs : d.state = .readPayload) (h : byteStep d b = .next (d', ev)) :
    d'.state = if d.cur.toNat + 1 = d.len.toNat then .readChecksum else .readPayload := by
  rw [byteStep_readPayload d b hs] at h
  split at h
  next hmore =>
    obtain ⟨-, rfl, -⟩ := storePayloadByte_iff.1 h
    have hne : d.cur.toNat + 1 ≠ d.len.toNat := Nat.ne_of_lt (by simpa [payloadMore] using hmore)
    rw [if_neg hne]
  next =>
    split at h
    next hlast =>
      obtain ⟨-, rfl, -⟩ := storePayloadByte_iff.1 h
      rw [if_pos (by simpa [payloadLast] using hlast)]
    next => simp at h

/-! ### Feeding the engine -/

/-- `ONBYTES` from the feed of its chunk (R183). -/
theorem exec_onbytes_next {s : State} {d d' : DecoderState} {chunk : List Byte} {evs : List DecodeEvent}
    (he : s.engine = some d) (hf : feed d chunk = .next (d', evs)) :
    exec (.onbytes chunk) s = .next (dispatchAll ((s.setEngine (some d')).raise (evs.map Event.decode)) evs) := by
  simp [exec, execOnbytes, feedEngine_next s d d' chunk evs he hf]

/-- A chunk that raises no event changes the decoder alone. -/
theorem exec_onbytes_silent {s : State} {d d' : DecoderState} {chunk : List Byte}
    (he : s.engine = some d) (hf : feed d chunk = .next (d', [])) :
    exec (.onbytes chunk) s = .next { s with engine := some d' } := by
  simp [exec_onbytes_next he hf, dispatchAll, State.setEngine]

/-- R103's note: a chunk without AA leaves a decoder in `WaitPreamble1` as it is. -/
theorem feed_without_preamble (d : DecoderState) (chunk : List Byte) (hs : d.state = .waitPreamble1)
    (h : ∀ b ∈ chunk, b ≠ 0xAA#8) : feed d chunk = .next (d, []) := by
  induction chunk with
  | nil => rfl
  | cons b rest ih =>
    obtain ⟨hb, hrest⟩ := List.forall_mem_cons.1 h
    rw [feed_cons_silent d d b rest (by rw [byteStep_waitPreamble1 d b hs, if_neg hb]), ih hrest]

/-- R105's note: in `WaitPreamble2` any run of AA followed by 55 locks. -/
theorem feed_held_then_locked (d : DecoderState) (n : Nat) (hs : d.state = .waitPreamble2) :
    feed d (List.replicate n 0xAA#8 ++ [0x55#8]) = .next ({ d with state := .readVersion }, []) := by
  induction n with
  | zero => exact feed_cons_silent d _ 0x55#8 [] (byteStep_waitPreamble2 d 0x55#8 hs)
  | succ n ih =>
    rw [List.replicate_succ, List.cons_append, feed_cons_silent d d _ _ (byteStep_waitPreamble2 d 0xAA#8 hs), ih]

/-- The dispatch looks at neither the decoder nor the event output, so it commutes with what a later feed writes. -/
theorem dispatchAll_setEngine_raise (s : State) (e : Option DecoderState) (raised : List Event)
    (es : List DecodeEvent) :
    dispatchAll ((s.setEngine e).raise raised) es = ((dispatchAll s es).setEngine e).raise raised := by
  simp [dispatchAll_eq, State.setEngine, State.raise]

/-- The dispatch leaves the connection. -/
@[simp] theorem dispatchAll_engine (s : State) (es : List DecodeEvent) : (dispatchAll s es).engine = s.engine := by
  rw [dispatchAll_eq]

/-- R120 for `FEED`: the second part starts where the first ended. -/
theorem exec_feed_append {s s1 : State} {a c : List Byte} (h : exec (.feed a) s = .next s1) :
    exec (.feed (a ++ c)) s = exec (.feed c) s1 := by
  cases ha : feedEngine a s with
  | fault r => simp [exec, execFeed, ha] at h
  | refused r => simp [exec, execFeed, ha] at h
  | next p =>
    obtain ⟨u, evs⟩ := p
    obtain rfl : u = s1 := by simpa [exec, execFeed, ha] using h
    obtain ⟨d, d1, he, hf, rfl⟩ := feedEngine_inv s u a evs ha
    simp only [exec, execFeed, feedEngine, he, feed_append d d1 a c evs hf, State.raise_engine,
      State.setEngine_engine]
    cases feed d1 c with
    | fault r => rfl
    | refused r => rfl
    | next q => simp [State.setEngine, State.raise]

/-- R120 for `ONBYTES`: the dispatch of the first part's events does not disturb the feed of the second. -/
theorem exec_onbytes_append {s s1 : State} {a c : List Byte} (h : exec (.onbytes a) s = .next s1) :
    exec (.onbytes (a ++ c)) s = exec (.onbytes c) s1 := by
  cases ha : feedEngine a s with
  | fault r => simp [exec, execOnbytes, ha] at h
  | refused r => simp [exec, execOnbytes, ha] at h
  | next p =>
    obtain ⟨u, evs⟩ := p
    obtain rfl : dispatchAll u evs = s1 := by simpa [exec, execOnbytes, ha] using h
    obtain ⟨d, d1, he, hf, rfl⟩ := feedEngine_inv s u a evs ha
    simp only [exec, execOnbytes, feedEngine, he, feed_append d d1 a c evs hf, dispatchAll_engine,
      State.raise_engine, State.setEngine_engine]
    cases feed d1 c with
    | fault r => rfl
    | refused r => rfl
    | next q =>
      obtain ⟨d2, evs2⟩ := q
      simp only [dispatchAll_append, ← dispatchAll_setEngine_raise]
      simp [State.setEngine, State.raise]

/-! ### The obligations -/

/-- Settles O1: the two rows of `WaitPreamble1`, and induction over a chunk without AA. -/
theorem waitPreamble1SyncsOrSkips : Obligations.WaitPreamble1SyncsOrSkips := by
  refine ⟨fun s d he hs => ⟨?_, fun b hb => ?_⟩, fun s chunk he hc => ?_⟩
  · exact row_runs_silently rfl he (wp1Sync_next.2 ⟨hs, rfl, rfl⟩)
  · exact row_runs_unchanged rfl he (wp1Skip_next.2 ⟨hs, hb, rfl, rfl⟩)
  · rw [exec_onbytes_silent he (feed_without_preamble _ chunk rfl hc), ← he]

/-- Settles O2: the three rows of `WaitPreamble2`, and induction over the run of AA. -/
theorem waitPreamble2LocksHoldsOrMisses : Obligations.WaitPreamble2LocksHoldsOrMisses := by
  refine ⟨fun s d he hs => ⟨?_, ?_, fun b h55 hAA => ?_⟩, fun s n he => ?_⟩
  · exact row_runs_silently rfl he (wp2Lock_next.2 ⟨hs, rfl, rfl⟩)
  · exact row_runs_unchanged rfl he (wp2Hold_next.2 ⟨hs, rfl, rfl⟩)
  · exact row_runs_silently rfl he (wp2Miss_next.2 ⟨hs, h55, hAA, rfl, rfl⟩)
  · apply exec_onbytes_silent he
    rw [List.replicate_succ, List.cons_append,
      feed_cons_silent _ _ _ _ (byteStep_waitPreamble1 DecoderState.reset 0xAA#8 rfl)]
    exact feed_held_then_locked _ n rfl

/-- Settles O3: the three header rows. -/
theorem headerBytesAreCaptured : Obligations.HeaderBytesAreCaptured := by
  intro s d b he
  rw [ofNat_sum_mod]
  exact ⟨fun hs => row_runs_silently rfl he (rdver_next.2 ⟨hs, rfl, rfl⟩),
    fun hs => row_runs_silently rfl he (rdtype_next.2 ⟨hs, rfl, rfl⟩),
    fun hs => row_runs_silently rfl he (rdid_next.2 ⟨hs, rfl, rfl⟩)⟩

/-- Settles O4: the rows of the legal lengths, and the invariant in `ReadLen`. -/
theorem legalLengthsAreAccepted : Obligations.LegalLengthsAreAccepted := by
  intro s d b he hs
  rw [ofNat_sum_mod]
  exact ⟨row_runs_silently rfl he (rdlenZero_next.2 ⟨hs, rfl, rfl⟩), fun hi => inv_readLen hi hs,
    fun hlow hhigh => row_runs_silently rfl he (rdlenData_next.2 ⟨hs, hlow, hhigh, rfl, rfl⟩)⟩

/-- Settles O5: the row of the illegal lengths clears the decoder. -/
theorem oversizedLengthAbandonsSilently : Obligations.OversizedLengthAbandonsSilently := by
  intro s d b he hs hover
  exact row_runs_silently rfl he (rdlenOver_next.2 ⟨hs, hover, rfl, rfl⟩)

/-- Settles O6: both payload rows store at the cursor, and the buffer reads back the write alone. -/
theorem payloadBytesAreStored : Obligations.PayloadBytesAreStored := by
  intro s d b he hs hcur
  rw [ofNat_sum_mod, ofNat_succ]
  refine ⟨d.pbuf.write d.cur.toNat b, Memory.read_write _ _ _, fun hmore => ?_, fun hlast => ?_⟩
  · exact row_runs_silently rfl he (rdpayMore_next.2 ⟨hs, hmore, hcur, by rw [← hs], rfl⟩)
  · exact row_runs_silently rfl he (rdpayLast_next.2 ⟨hs, hlast, hcur, rfl, rfl⟩)

/-- Settles O7: the buffer is dense there, so its bytes are the payload, and the checksum is the invariant's sum. -/
theorem matchingChecksumEmitsTheFrame : Obligations.MatchingChecksumEmitsTheFrame := by
  intro s d b he hi hs hb
  obtain ⟨hdense, hacc⟩ := inv_readChecksum hi hs
  refine ⟨d.pbuf.bytes, bytes_length_of_held _ _ hdense, fun k _ => Memory.read_dense _ _ k hdense, ?_, ?_⟩
  · rw [hb, hacc, cksum_toNat]
    simp [Nat.add_assoc]
  · exact row_runs_with_event rfl he (rdcsumOk_next.2 ⟨hs, hb, _, captureFrame_dense d b hdense, rfl, rfl⟩)

/-- Settles O8: the row of the wrong checksums raises the mismatch and clears the decoder. -/
theorem wrongChecksumDropsTheFrame : Obligations.WrongChecksumDropsTheFrame := by
  intro s d b he hs hb
  exact row_runs_with_event rfl he (rdcsumBad_next.2 ⟨hs, hb, rfl, rfl⟩)

/-- Settles O10: a receive row that goes on is the byte step, which each state answers. -/
theorem transitionGraphIsComplete : Obligations.TransitionGraphIsComplete := by
  intro i b s t d d' hb he hx ht
  obtain ⟨d1, ev, -, hstep, rfl⟩ := exec_rx_next hb he hx
  obtain rfl : d1 = d' := by simpa using ht
  cases hs : d.state with
  | waitPreamble1 =>
    rw [byteStep_waitPreamble1 d b hs, answer_next] at hstep
    rw [hstep.1, apply_ite DecoderState.state, hs]
  | waitPreamble2 =>
    rw [byteStep_waitPreamble2 d b hs, answer_next] at hstep
    rw [hstep.1, apply_ite DecoderState.state, apply_ite DecoderState.state, hs]
  | readVersion =>
    rw [byteStep_readVersion d b hs, answer_next] at hstep
    rw [hstep.1]
  | readType =>
    rw [byteStep_readType d b hs, answer_next] at hstep
    rw [hstep.1]
  | readId =>
    rw [byteStep_readId d b hs, answer_next] at hstep
    rw [hstep.1]
  | readLen =>
    rw [byteStep_readLen d b hs, answer_next] at hstep
    rw [hstep.1, apply_ite DecoderState.state, apply_ite DecoderState.state]
    rfl
  | readPayload => exact byteStep_readPayload_next hs hstep
  | readChecksum => rw [byteStep_readChecksum_next hs hstep]; rfl

/-- Settles O11: an invariant decoder has a byte step, whose row is fetched; any row that goes on is the fetched one. -/
theorem exactlyOneTransitionApplies : Obligations.ExactlyOneTransitionApplies := by
  intro s d b he hi
  obtain ⟨d', ev, hstep, -⟩ := byteStep_inv d b hi
  obtain ⟨i, hf, ht⟩ := byteStep_next hstep
  have hb := fetchInstr_rxByte hf
  refine ⟨i, ⟨hb, _, exec_rx_of_transition hb he ht⟩, ?_⟩
  rintro j hj ⟨t, hx⟩
  obtain ⟨-, -, hfj, -⟩ := exec_rx_next hj he hx
  simpa [hf] using hfj.symm

/-- Settles O15: a feed cut in two, at the decoder and at the engine. -/
theorem chunkBoundariesDoNotMatter : Obligations.ChunkBoundariesDoNotMatter :=
  fun _ _ _ _ => ⟨exec_feed_append, exec_onbytes_append⟩

end Sys2Proof.Machine

/-! PROOFS. The frame encoder (spec/41_frame_encoder.md). What `ENCODE` does to the machine (`exec_encode_next`), the
bytes and the length of an encoded frame, and that a hunting decoder answers exactly that frame (`feed_encodeFrame`). -/

namespace Sys2Proof.Machine

/-! ### The operation -/

/-- When `ENCODE` goes on, and everything it does then (R141, R143). -/
theorem exec_encode_next {typ id : Int} {p : List Byte} {s t : State} :
    exec (.encode typ id p) s = .next t ↔
      p.length ≤ 128 ∧ t = s.output [.ret (.frameBytes (encodeFrame typ id p))] := by
  by_cases h : p.length ≤ 128
  · simp [exec, execEncode, encodeChecked, Config.maxPayload, h, eq_comm]
  · simp [exec, execEncode, encodeChecked, Config.maxPayload, h]

/-- `FEED` from the feed of its bytes (R118). -/
theorem exec_feed_next {s : State} {d d' : DecoderState} {bytes : List Byte} {evs : List DecodeEvent}
    (he : s.engine = some d) (hf : feed d bytes = .next (d', evs)) :
    exec (.feed bytes) s = .next ((s.setEngine (some d')).raise (evs.map Event.decode)) := by
  simp [exec, execFeed, feedEngine_next s d d' bytes evs he hf]

/-! ### The frame's bytes -/

/-- The low byte of an integer as its floored remainder (R142). -/
theorem lowByte_eq (v : Int) : lowByte v = BitVec.ofNat 8 (v % 256).toNat := by
  apply BitVec.eq_of_toNat_eq
  have h := lowByte_toNat v
  rw [BitVec.toNat_ofNat]
  omega

/-- The checksum of `ENCODE` as a sum of values modulo 256 (R141): each summand's own reduction does not matter. -/
theorem cksum_frameBody (t i : Nat) (p : List Byte) :
    cksum (frameBody 0x01#8 (BitVec.ofNat 8 t) (BitVec.ofNat 8 i) p) =
      BitVec.ofNat 8 ((1 + t + i + p.length + (p.map BitVec.toNat).sum) % 256) := by
  apply BitVec.eq_of_toNat_eq
  rw [cksum_toNat]
  simp only [frameBody, List.cons_append, List.nil_append, List.map_cons, List.sum_cons, BitVec.toNat_ofNat]
  omega

/-- R144: the preamble, the four header bytes and the checksum are seven bytes. -/
theorem encodeFrame_length (typ id : Int) (p : List Byte) : (encodeFrame typ id p).length = 7 + p.length := by
  simp [encodeFrame, frameV, frameBody]
  omega

/-! ### Decoding an encoded frame -/

/-- The frame that `ENCODE(type, id, payload)` builds, as the decoder emits it (R141, R42). -/
def encodedFrame (typ id : Int) (p : List Byte) : Frame :=
  { version := Config.txVersion
    typ := lowByte typ
    id := lowByte id
    len := BitVec.ofNat 8 p.length
    payload := p
    checksum := cksum (frameBody Config.txVersion (lowByte typ) (lowByte id) p) }

/-- The checksum of the frame is the last byte of its encoding. -/
theorem encodeFrame_getLast? (typ id : Int) (p : List Byte) :
    (encodeFrame typ id p).getLast? = some (encodedFrame typ id p).checksum :=
  List.getLast?_concat

/-- A hunting decoder decodes an encoded frame: its checksum byte is the matching one (R146). -/
theorem feed_encodeFrame (typ id : Int) {p : List Byte} (hp : p.length ≤ 128) {d : DecoderState}
    (hd : d = DecoderState.reset ∨ d = { DecoderState.reset with state := .waitPreamble2 }) :
    feed d (encodeFrame typ id p) = .next (DecoderState.reset, [.frameReady (encodedFrame typ id p)]) := by
  have hraw := feed_rawFrame Config.txVersion (lowByte typ) (lowByte id) (encodedFrame typ id p).checksum p hp d hd
  rwa [if_pos (by rfl)] at hraw

/-! ### The obligations -/

/-- Settles O48: the decoder answers the encoded frame, and `FEED` writes only the decoder and the event output. -/
theorem encodedFrameIsDecodedBack : Obligations.EncodedFrameIsDecodedBack := by
  intro s d typ id p he hd hp
  have hlen : (encodedFrame typ id p).len.toNat = p.length := by
    rw [encodedFrame, BitVec.toNat_ofNat]
    exact Nat.mod_eq_of_lt (by omega)
  exact ⟨encodedFrame typ id p, rfl, lowByte_toNat typ, lowByte_toNat id, hlen, rfl, encodeFrame_getLast? typ id p,
    exec_feed_next he (feed_encodeFrame typ id hp hd)⟩

/-- Settles O18: the answer is the encoded frame, with its low bytes and its checksum written as numbers. -/
theorem encodeBuildsTheFrame : Obligations.EncodeBuildsTheFrame := by
  intro s typ id p hp
  rw [← cksum_frameBody, ← lowByte_eq, ← lowByte_eq]
  exact exec_encode_next.2 ⟨hp, rfl⟩

/-- Settles O20: `ENCODE` goes on only up to 128 payload bytes, and seven bytes are added. -/
theorem encodedLengthIsSevenMore : Obligations.EncodedLengthIsSevenMore := by
  intro s t typ id p hx
  obtain ⟨hp, rfl⟩ := exec_encode_next.1 hx
  have hlen := encodeFrame_length typ id p
  exact ⟨encodeFrame typ id p, rfl, hlen, by omega, by omega⟩

end Sys2Proof.Machine

/-! PROOFS. The sensor-payload codec (spec/42_sensor_codec.md). The values of a payload long enough (`sensorValues`), and
that they are read off its first six bytes (`sensorValues_append`). -/

namespace Sys2Proof.Machine

/-- The three values of a payload's fields, whose length is not tested (R163, R164, R169). -/
def sensorValues (p : Params) (payload : List Byte) : SensorValues where
  hum100 := hum100 p.tieRule (payloadRawHumidity p.sensorLayout payload)
  temp100 := temp100 p.tieRule (payloadRawTemperature p.sensorLayout payload)
  status := payloadStatus p.sensorLayout payload

/-- R160: six bytes are enough for the codec to answer. -/
theorem sensdec_of_six_le (p : Params) {payload : List Byte} (h : 6 ≤ payload.length) :
    sensdec p payload = some (sensorValues p payload) :=
  if_neg (Nat.not_lt.2 h)

/-- `SENSDEC` on a payload of six bytes or more answers its values and changes nothing else (R160). -/
theorem exec_sensdec_of_six_le {payload : List Byte} (s : State) (h : 6 ≤ payload.length) :
    exec (.sensdec payload) s = .next (s.output [.ret (.sensorValues (sensorValues s.params payload))]) := by
  simp [exec, execSensdec, sensdec_of_six_le s.params h]

/-- A byte below the end of a payload is read whatever follows. -/
theorem byteAt_append {payload : List Byte} {i : Nat} (h : i < payload.length) (rest : List Byte) :
    byteAt (payload ++ rest) i = byteAt payload i :=
  List.getD_append payload rest 0 i h

/-- R162: both layouts place `b0` at index 0 or 1, so `b4` is at index 5 at most. -/
theorem fieldsIndex_le (layout : SensorLayout) : fieldsIndex layout ≤ 1 := by
  cases layout <;> decide

/-- R162: both layouts place `STATUS` among the first six bytes. -/
theorem statusIndex_lt (layout : SensorLayout) : statusIndex layout < 6 := by
  cases layout <;> decide

/-- R171: bytes at index 6 and above are ignored, since no field is read there. -/
theorem sensorValues_append (p : Params) {payload : List Byte} (h : 6 ≤ payload.length) (rest : List Byte) :
    sensorValues p (payload ++ rest) = sensorValues p payload := by
  have hfield (k : Nat) (hk : k ≤ 4) :
      byteAt (payload ++ rest) (fieldsIndex p.sensorLayout + k) = byteAt payload (fieldsIndex p.sensorLayout + k) := by
    have hbase := fieldsIndex_le p.sensorLayout
    exact byteAt_append (by omega) rest
  have hstatus := byteAt_append ((statusIndex_lt p.sensorLayout).trans_le h) rest
  have hb0 := hfield 0 (by decide)
  rw [Nat.add_zero] at hb0
  simp [sensorValues, payloadRawHumidity, payloadRawTemperature, payloadStatus, hb0, hfield, hstatus]

/-! ### The obligations -/

/-- Settles O25: the function is the values of the six bytes as a payload; what is appended to them is not read. -/
theorem sensdecDependsOnSixBytes : Obligations.SensdecDependsOnSixBytes := by
  refine ⟨fun p b0 b1 b2 b3 b4 b5 => sensorValues p [b0, b1, b2, b3, b4, b5], fun s b0 b1 b2 b3 b4 b5 rest => ?_⟩
  have hsix : 6 ≤ [b0, b1, b2, b3, b4, b5].length := Nat.le_refl 6
  rw [exec_sensdec_of_six_le s (List.length_append ▸ Nat.le_add_right_of_le hsix),
    sensorValues_append s.params hsix rest]
  rfl

end Sys2Proof.Machine

/-! PROOFS. The protocol engine (spec/43_protocol_engine.md). What `CONNECT` and `TEARDOWN` make of the engine, and when
`SENDCMD` goes on and what it does then (`exec_sendcmd_next`), for both answers of the transport. -/

namespace Sys2Proof.Machine

/-! ### The operations -/

/-- `CONNECT` writes the engine alone: a fresh decoder (R181). -/
theorem exec_connect (s : State) : exec .connect s = .next (s.setEngine (some DecoderState.reset)) := rfl

/-- `TEARDOWN` writes the engine alone: no decoder (R182). -/
theorem exec_teardown (s : State) : exec .teardown s = .next (s.setEngine none) := rfl

/-- The accepting transport takes every byte (R188, R189). -/
@[simp] theorem offer_accepted (bytes : List Byte) (s : State) :
    offer bytes true s = (s.transmit bytes).output [.ret .accepted] := rfl

/-- The unavailable transport takes no byte (R188, R189). -/
@[simp] theorem offer_unavailable (bytes : List Byte) (s : State) :
    offer bytes false s = s.output [.ret .unavailable] := rfl

/-- When `SENDCMD` goes on, and everything it does then: it offers the frame that `ENCODE` answers (R188, R143). -/
theorem exec_sendcmd_next {typ id : Int} {p : List Byte} {avail : Bool} {s t : State} :
    exec (.sendcmd typ id p avail) s = .next t ↔ p.length ≤ 128 ∧ t = offer (encodeFrame typ id p) avail s := by
  by_cases h : p.length ≤ 128
  · simp [exec, execSendcmd, encodeChecked, Config.maxPayload, h, eq_comm]
  · simp [exec, execSendcmd, encodeChecked, Config.maxPayload, h]

/-! ### The obligations -/

/-- Settles O30: both operations write the engine alone, whatever it held. -/
theorem connectAndTeardown : Obligations.ConnectAndTeardown :=
  fun s => ⟨exec_connect s, exec_teardown s⟩

/-- Settles O32: the bytes are the encoded frame, fixed before the state, and the transport takes all of it or nothing. -/
theorem sendcmdOffersTheWholeFrame : Obligations.SendcmdOffersTheWholeFrame := by
  intro typ id p hp
  refine ⟨encodeFrame typ id p, fun s => ⟨?encode, ?accepted, ?unavailable⟩⟩
  case encode => exact exec_encode_next.2 ⟨hp, rfl⟩
  case accepted => exact exec_sendcmd_next.2 ⟨hp, (offer_accepted _ s).symm⟩
  case unavailable => exact exec_sendcmd_next.2 ⟨hp, (offer_unavailable _ s).symm⟩

end Sys2Proof.Machine

/-! PROOFS. The selector words (spec/30_encoding.md R79, R80). A receive row's word is the selector word of its state,
its byte and its comparison (`rowWord_eq_selectorWord`), so the encoder and the decoder meet in `selected`: the word of
a well-formed row is the selector that selects it (`encode_selected`), and what a selector selects is well-formed and
has that selector as its word (`selected_encode`). -/

namespace Sys2Proof.Machine

/-! ### Words, selectors, rows -/

/-- The word of a row whose `match` holds a state's code and no byte is the selector word of that state (R79, R80). -/
theorem rowWord_eq_selectorWord (cond : RegCond) (t : StateTag) (b : Byte) :
    rowWord (t.code ++ 0#8) cond b = selectorWord cond.bit t b := by
  have hsel : (t.code ++ 0#8) ||| b.setWidth 11 = t.code ++ b := by
    have hb : b.setWidth 11 = 0#3 ++ b := BitVec.setWidth_eq_append (by decide)
    rw [hb, BitVec.or_append, BitVec.or_zero, BitVec.zero_or]
  rw [rowWord, hsel, selectorWord]
  exact (BitVec.append_assoc (x₁ := 0#4 ++ BitVec.ofBool cond.bit) (x₂ := t.code) (x₃ := b)).symm

/-- The word of a well-formed row is a selector that selects the row. -/
theorem encode_selected {i : Instr} {w : BitVec 16} (hwf : i.wellFormed = true) (he : encode i = some w) :
    ∃ c t b, w = selectorWord c t b ∧ selected c t b = some i := by
  cases i <;> simp only [encode, Option.some.injEq, reduceCtorEq] at he <;> subst he
  case wp1Sync => exact ⟨false, .waitPreamble1, 0xAA#8, by decide, rfl⟩
  case wp1Skip b =>
    have hb : b ≠ 0xAA#8 := by simpa [Instr.wellFormed] using hwf
    exact ⟨false, .waitPreamble1, b, rowWord_eq_selectorWord .always .waitPreamble1 b, by simp [selected, hb]⟩
  case wp2Lock => exact ⟨false, .waitPreamble2, 0x55#8, by decide, rfl⟩
  case wp2Hold => exact ⟨false, .waitPreamble2, 0xAA#8, by decide, rfl⟩
  case wp2Miss b =>
    obtain ⟨h55, hAA⟩ : b ≠ 0x55#8 ∧ b ≠ 0xAA#8 := by simpa [Instr.wellFormed] using hwf
    exact ⟨false, .waitPreamble2, b, rowWord_eq_selectorWord .always .waitPreamble2 b, by simp [selected, h55, hAA]⟩
  case rdver b => exact ⟨false, .readVersion, b, rowWord_eq_selectorWord .always .readVersion b, rfl⟩
  case rdtype b => exact ⟨false, .readType, b, rowWord_eq_selectorWord .always .readType b, rfl⟩
  case rdid b => exact ⟨false, .readId, b, rowWord_eq_selectorWord .always .readId b, rfl⟩
  case rdlenZero => exact ⟨false, .readLen, 0#8, rowWord_eq_selectorWord .always .readLen 0#8, rfl⟩
  case rdlenOver b =>
    have hlt : Config.maxPayload < b.toNat := by simpa [Instr.wellFormed] using hwf
    have hne : b ≠ 0#8 := by rintro rfl; simp at hlt
    exact ⟨false, .readLen, b, rowWord_eq_selectorWord .always .readLen b,
      by simp [selected, hne, (lt_iff_128 b).2 hlt]⟩
  case rdlenData b =>
    obtain ⟨hlow, hhigh⟩ : 1 ≤ b.toNat ∧ b.toNat ≤ Config.maxPayload := by simpa [Instr.wellFormed] using hwf
    have hne : b ≠ 0#8 := by rintro rfl; simp at hlow
    have hle : ¬ 128#8 < b := fun hlt => Nat.not_lt.2 hhigh ((lt_iff_128 b).1 hlt)
    exact ⟨false, .readLen, b, rowWord_eq_selectorWord .always .readLen b,
      by rw [selected, if_neg Bool.false_ne_true, if_neg hne, if_neg hle]⟩
  case rdpayMore b => exact ⟨false, .readPayload, b, rowWord_eq_selectorWord .curBeforeEnd .readPayload b, rfl⟩
  case rdpayLast b => exact ⟨true, .readPayload, b, rowWord_eq_selectorWord .curAtEnd .readPayload b, rfl⟩
  case rdcsumOk b => exact ⟨true, .readChecksum, b, rowWord_eq_selectorWord .accEqual .readChecksum b, rfl⟩
  case rdcsumBad b => exact ⟨false, .readChecksum, b, rowWord_eq_selectorWord .accDiffers .readChecksum b, rfl⟩

/-- Only the two states whose rows test a register select with the comparison bit set (R80; log entry 5). -/
theorem selected_isSome {c : Bool} {t : StateTag} (b : Byte) :
    (∃ i, selected c t b = some i) ↔ (c = true → t = .readPayload ∨ t = .readChecksum) := by
  cases c <;> cases t <;> simp [selected] <;> split_ifs <;> simp

/-- A selected row meets R80's byte ranges and has the selector as its word. -/
theorem selected_encode {c : Bool} {t : StateTag} {b : Byte} {i : Instr} (h : selected c t b = some i) :
    i.wellFormed = true ∧ encode i = some (selectorWord c t b) := by
  have hword (r : RegCond) (t : StateTag) : some (rowWord (t.code ++ 0#8) r b) = some (selectorWord r.bit t b) :=
    congrArg some (rowWord_eq_selectorWord r t b)
  have hc := (selected_isSome b).1 ⟨i, h⟩
  cases t <;> cases c <;> simp only [reduceCtorEq, or_self, or_false, or_true, forall_const] at hc <;>
    simp only [selected, Bool.false_eq_true, if_true, if_false] at h
  case waitPreamble1.false =>
    split at h <;> obtain rfl := Option.some.inj h
    next hb => exact ⟨rfl, by rw [hb]; decide⟩
    next hb => exact ⟨by simp [Instr.wellFormed, hb], hword .always .waitPreamble1⟩
  case waitPreamble2.false =>
    split at h
    next hb => obtain rfl := Option.some.inj h; exact ⟨rfl, by rw [hb]; decide⟩
    next h55 =>
      split at h <;> obtain rfl := Option.some.inj h
      next hb => exact ⟨rfl, by rw [hb]; decide⟩
      next hAA =>
        exact ⟨by simp [Instr.wellFormed, h55, hAA], hword .always .waitPreamble2⟩
  case readVersion.false => exact Option.some.inj h ▸ ⟨rfl, hword .always .readVersion⟩
  case readType.false => exact Option.some.inj h ▸ ⟨rfl, hword .always .readType⟩
  case readId.false => exact Option.some.inj h ▸ ⟨rfl, hword .always .readId⟩
  case readLen.false =>
    split at h
    next hb => obtain rfl := Option.some.inj h; exact ⟨rfl, by rw [hb]; decide⟩
    next hne =>
      split at h <;> obtain rfl := Option.some.inj h
      next hover =>
        have hlt := (lt_iff_128 b).1 hover
        exact ⟨by simp [Instr.wellFormed, hlt], hword .always .readLen⟩
      next hover =>
        have hle := Nat.le_of_not_lt (hover ∘ (lt_iff_128 b).2)
        exact ⟨by simp [Instr.wellFormed, one_le_of_ne_zero b hne, hle], hword .always .readLen⟩
  case readPayload.false => exact Option.some.inj h ▸ ⟨rfl, hword .curBeforeEnd .readPayload⟩
  case readPayload.true => exact Option.some.inj h ▸ ⟨rfl, hword .curAtEnd .readPayload⟩
  case readChecksum.false => exact Option.some.inj h ▸ ⟨rfl, hword .accDiffers .readChecksum⟩
  case readChecksum.true => exact Option.some.inj h ▸ ⟨rfl, hword .accEqual .readChecksum⟩

/-- A word that decodes is the selector word of its three fields, which selects what it decodes to. -/
theorem decodeWord_selected {w : BitVec 16} {i : Instr} (h : decodeWord w = .ok i) :
    w = selectorWord (w.getLsbD 11) (StateTag.ofCode (w.extractLsb' 8 3)) (selByte w) ∧
      selected (w.getLsbD 11) (StateTag.ofCode (w.extractLsb' 8 3)) (selByte w) = some i := by
  have hres : w.extractLsb' 12 4 = 0#4 := by
    by_contra hne
    simp [decodeWord, hne] at h
  have hw := selectorWord_fields w hres
  exact ⟨hw, by rw [← decoded_selectorWord, ← hw, decoded, h]⟩

/-- Registers that give the comparison already are left (log entry 5). -/
theorem forceComparison_of_agrees {c : Bool} {b : Byte} {d : DecoderState} (h : registerComparison d b = some c) :
    forceComparison c b d = d := by
  cases hs : d.state <;> simp only [forceComparison, hs, h, if_true]

/-- After forcing, the registers give the comparison, in every state that can (log entry 5). -/
theorem registerComparison_forceComparison {c : Bool} (b : Byte) {d : DecoderState}
    (hc : c = true → d.state = .readPayload ∨ d.state = .readChecksum) :
    registerComparison (forceComparison c b d) b = some c := by
  by_cases hr : registerComparison d b = some c
  · rw [forceComparison_of_agrees hr, hr]
  · cases hs : d.state <;> simp only [forceComparison, hs, if_neg hr]
    case readPayload => cases c <;> simp [registerComparison, payloadMore, payloadLast]
    case readChecksum => cases c <;> simp [registerComparison, checksumEqual]
    all_goals
      have hfalse : c = false := by simpa [hs] using hc
      simp [registerComparison, hs, hfalse]

/-- Forcing the comparison leaves the state tag. -/
theorem forceComparison_state (c : Bool) (b : Byte) (d : DecoderState) :
    (forceComparison c b d).state = d.state := by
  unfold forceComparison
  split
  next => split <;> rfl
  next => split <;> rfl
  all_goals rfl

/-- A table word that decodes is a 16-bit word that the decoder accepts. -/
theorem decodeTableWord_some {nbits w : Nat} {i : Instr} (h : decodeTableWord nbits w = some i) :
    ∃ word, tableWord nbits w = some word ∧ decodeWord word = .ok i := by
  unfold decodeTableWord at h
  split at h
  next word hword =>
    split at h
    next j hj => exact ⟨word, hword, Option.some.inj h ▸ hj⟩
    next => exact absurd h (by simp)
  next => exact absurd h (by simp)

/-- A placed word is the word that is fetched (log entry 5). -/
theorem fetch_placeSelector {word : BitVec 16} {i : Instr} (s : State) (h : decodeWord word = .ok i) :
    fetch (placeSelector word s) = .next (some i, (placeSelector word s).setInput s.input) := by
  obtain ⟨-, hi⟩ := decodeWord_selected h
  simp only [fetch, placeSelector]
  rw [fetchInstr_selected _ _ _ i (registerComparison_forceComparison _ ((selected_isSome _).1 ⟨i, hi⟩))
    (by rwa [forceComparison_state])]

/-! ### The rows of a state -/

/-- The 11-bit `SEL` in a selector word (R79). -/
theorem selectorWord_sel (c : Bool) (t : StateTag) (b : Byte) :
    (selectorWord c t b).extractLsb' 0 11 = t.code ++ b := by
  rw [show selectorWord c t b = (0#4 ++ BitVec.ofBool c) ++ (t.code ++ b) from BitVec.append_assoc]
  exact BitVec.extractLsb'_append_eq_right

/-- The rows of the opcode map whose `match` holds a state's code. -/
def rowsOf (t : StateTag) : List OpRow := opcodeMap.filter (fun r => r.pattern.extractLsb' 8 3 == t.code)

/-- Every mask tests the whole state code, so a row that applies is one of its state's rows. -/
theorem filter_applies (c : Bool) (t : StateTag) (b : Byte) :
    opcodeMap.filter (fun r => r.applies (selectorWord c t b)) =
      (rowsOf t).filter (fun r => r.applies (selectorWord c t b)) := by
  have hmask : ∀ r ∈ opcodeMap, r.mask.extractLsb' 8 3 = BitVec.allOnes 3 := by decide
  rw [rowsOf, List.filter_filter]
  refine List.filter_congr fun r hr => Bool.eq_self_and.2 fun happ => ?_
  simp only [OpRow.applies, Bool.and_eq_true, beq_iff_eq, selectorWord_sel] at happ
  obtain ⟨⟨hmatch, -⟩, -⟩ := happ
  rw [beq_iff_eq, ← hmatch, BitVec.extractLsb'_and, hmask r hr, BitVec.extractLsb'_append_eq_left, BitVec.and_allOnes]

/-! ### No input -/

/-- With no input the machine idles (R252). -/
theorem step_idle {s : State} (hin : s.input = []) : step s = .next s := by
  simp [step, fetch, hin]

/-! ### The obligations -/

/-- Settles O45: encoder and decoder meet in the selected row. -/
theorem selectorEncodingIsABijection : Obligations.SelectorEncodingIsABijection := by
  refine ⟨fun i w hwf he => ?_, fun i w hd => ?_, fun c t b hc => ?_⟩
  · obtain ⟨c, t, b, rfl, hi⟩ := encode_selected hwf he
    exact decodeWord_selectorWord c t b i hi
  · obtain ⟨hw, hi⟩ := decodeWord_selected hd
    rw [hw]
    exact selected_encode hi
  · obtain ⟨i, hi⟩ := (selected_isSome b).2 hc
    exact ⟨i, decodeWord_selectorWord c t b i hi, selected_rxByte c t b i hi⟩

/-- Settles O46: for each comparison and each state, the state's own rows are evaluated on every byte. -/
theorem opcodeRowsAreDisjointAndCover : Obligations.OpcodeRowsAreDisjointAndCover := by
  intro c t b
  rw [filter_applies]
  cases c <;> cases t <;> revert b <;> decide +kernel

/-- Settles O47: each word is evaluated. -/
theorem tableWordsDecode : Obligations.TableWordsDecode := by
  refine ⟨?_, ?_, ?_, ?_, ?_, ?_, ?_⟩ <;> decide

/-- Settles O42: the placed selector makes the register comparison its word asks for, so the opcode map fetches the row
that the word decodes to. -/
theorem placedWordIsFetched : Obligations.PlacedWordIsFetched := by
  intro s nbits w i h
  obtain ⟨word, hword, hi⟩ := decodeTableWord_some h
  have hplace : s.withFetchWord nbits w = placeSelector word s := by simp [State.withFetchWord, h, hword]
  rw [hplace]
  exact ⟨_, fetch_placeSelector s hi, rfl, rfl, rfl, rfl, rfl, rfl⟩

/-- Settles O41: the decoder answers the selected row, which the step fetches. -/
theorem stepRunsTheSelectedOperation : Obligations.StepRunsTheSelectedOperation := by
  refine ⟨fun s hin => step_idle hin, fun s c rest hin => step_call s c rest hin,
    fun s d b rest c i hin he hc hi => ?_⟩
  have hsel : selected c d.state b = some i := by rw [← decoded_selectorWord, decoded, hi]
  have hb := selected_rxByte c d.state b i hsel
  have hfetch : fetch s = .next (some i, s.setInput rest) := by
    simp [fetch, hin, he, fetchInstr_selected d b c i hc hsel]
  refine ⟨(selected_encode hsel).1, hb, fun t ht => ?_, fun r hr => ?_, fun r hr => ?_⟩
  · simp only [step, hfetch, State.setInput, ht, afterExec, hb]
  · simp only [step, hfetch, State.setInput, hr]
  · simp only [step, hfetch, State.setInput, hr]

end Sys2Proof.Machine

/-! PROOFS. The frame decoder, continued (spec/40_frame_decoder.md). A byte step that goes on is silent
(`byteStep_silent`) or is the checksum step of a frame (`byteStep_readChecksum_event`); counting the bytes that each
state is at least away from an event (`bytesToEvent`) then spaces the events of a chunk (`feed_spaced`). -/

namespace Sys2Proof.Machine

/-! ### When a byte step raises an event -/

/-- How many bytes a state is at least away from the next event, that event's checksum byte included. -/
def bytesToEvent : StateTag → Nat
  | .waitPreamble1 => 7
  | .waitPreamble2 => 6
  | .readVersion => 5
  | .readType => 4
  | .readId => 3
  | .readLen => 2
  | .readPayload => 2
  | .readChecksum => 1

/-- Outside `ReadChecksum` a byte step raises nothing (R208), and brings the next event at most one byte nearer. -/
theorem byteStep_silent {d d' : DecoderState} {b : Byte} {ev : Option DecodeEvent} (hs : d.state ≠ .readChecksum)
    (h : byteStep d b = .next (d', ev)) : ev = none ∧ bytesToEvent d.state ≤ bytesToEvent d'.state + 1 := by
  cases hd : d.state with
  | waitPreamble1 =>
    rw [byteStep_waitPreamble1 d b hd] at h
    obtain ⟨rfl, rfl⟩ := answer_next.1 h
    split_ifs <;> simp [hd, bytesToEvent]
  | waitPreamble2 =>
    rw [byteStep_waitPreamble2 d b hd] at h
    obtain ⟨rfl, rfl⟩ := answer_next.1 h
    split_ifs <;> simp [hd, bytesToEvent]
  | readVersion =>
    rw [byteStep_readVersion d b hd] at h
    obtain ⟨rfl, rfl⟩ := answer_next.1 h
    exact ⟨rfl, by simp [bytesToEvent]⟩
  | readType =>
    rw [byteStep_readType d b hd] at h
    obtain ⟨rfl, rfl⟩ := answer_next.1 h
    exact ⟨rfl, by simp [bytesToEvent]⟩
  | readId =>
    rw [byteStep_readId d b hd] at h
    obtain ⟨rfl, rfl⟩ := answer_next.1 h
    exact ⟨rfl, by simp [bytesToEvent]⟩
  | readLen =>
    rw [byteStep_readLen d b hd] at h
    obtain ⟨rfl, rfl⟩ := answer_next.1 h
    split_ifs <;> simp [DecoderState.reset, bytesToEvent]
  | readPayload =>
    rw [byteStep_readPayload d b hd] at h
    split_ifs at h
    · obtain ⟨-, rfl, rfl⟩ := storePayloadByte_iff.1 h
      exact ⟨rfl, by simp [bytesToEvent]⟩
    · obtain ⟨-, rfl, rfl⟩ := storePayloadByte_iff.1 h
      exact ⟨rfl, by simp [bytesToEvent]⟩
  | readChecksum => exact absurd hd hs

/-- In `ReadChecksum` a byte step that goes on raises one event (R115, R116, R208). -/
theorem byteStep_readChecksum_event {d d' : DecoderState} {b : Byte} {ev : Option DecodeEvent}
    (hs : d.state = .readChecksum) (h : byteStep d b = .next (d', ev)) : ∃ e, ev = some e := by
  by_cases hb : b = d.acc
  · have hf : fetchInstr d b = .next (.rdcsumOk b) :=
      fetchInstr_selected d b true _ (by simp [registerComparison, hs, checksumEqual, hb]) (by simp [selected, hs])
    rw [byteStep_fetched d b _ hf] at h
    obtain ⟨-, -, f, -, -, hev⟩ := rdcsumOk_next.1 h
    exact ⟨_, hev⟩
  · rw [byteStep_readChecksum_differs d b hs hb, answer_next] at h
    exact ⟨_, h.2⟩

/-! ### The spacing of events -/

/-- One byte comes at most one byte nearer to the next event, and an event starts the seven bytes again. -/
theorem byteStep_bytesToEvent {d d' : DecoderState} {b : Byte} {ev : Option DecodeEvent}
    (h : byteStep d b = .next (d', ev)) :
    7 * ev.toList.length + bytesToEvent d.state ≤ bytesToEvent d'.state + 1 := by
  by_cases hs : d.state = .readChecksum
  · obtain ⟨e, rfl⟩ := byteStep_readChecksum_event hs h
    rw [hs, byteStep_readChecksum_next hs h]
    exact Nat.le_refl 8
  · obtain ⟨rfl, hnear⟩ := byteStep_silent hs h
    simpa using hnear

/-- The events of a chunk, seven bytes each, fit into the chunk and the bytes that its first event is already nearer
than seven (R213). -/
theorem feed_spaced {d d' : DecoderState} {chunk : List Byte} {evs : List DecodeEvent}
    (h : feed d chunk = .next (d', evs)) : 7 * evs.length + bytesToEvent d.state ≤ chunk.length + 7 := by
  induction chunk generalizing d evs with
  | nil =>
    obtain ⟨-, rfl⟩ : d = d' ∧ [] = evs := by simpa using h
    cases d.state <;> decide
  | cons b chunk ih =>
    obtain ⟨d1, ev, evs1, hb, hrest, rfl⟩ := feed_cons_next d d' b chunk evs h
    have hstep := byteStep_bytesToEvent hb
    have hih := ih hrest
    rw [List.length_append, List.length_cons]
    omega

/-! ### The transition a receive row has run -/

/-- A receive row that goes on has run its transition on the connection's decoder. -/
theorem exec_rx_transition {i : Instr} {b : Byte} {s t : State} {d d' : DecoderState} (hb : i.rxByte = some b)
    (he : s.engine = some d) (hx : exec i s = .next t) (ht : t.engine = some d') :
    ∃ ev, transition i d = .next (d', ev) := by
  rw [exec_rx i s b hb] at hx
  obtain ⟨d0, d1, ev, he0, htr, rfl⟩ := rxApply_next _ s t hx
  obtain rfl : d = d0 := Option.some.inj (he.symm.trans he0)
  obtain rfl : d1 = d' := Option.some.inj ht
  exact ⟨ev, htr⟩

/-! ### The obligations -/

/-- Settles O9: `BADSTATE` runs on any decoder and clears it (R117, D21). -/
theorem fallbackClearsTheDecoder : Obligations.FallbackClearsTheDecoder := by
  intro s d b he
  have hclear : badstate b d = .next (DecoderState.reset, none) := badstate_next.2 ⟨rfl, rfl⟩
  simp [exec, execBadstate, rxApply, he, hclear, State.setEngine, DecoderState.reset]

/-- Settles O12: a receive row that goes on is the byte step, silent outside `ReadChecksum`. -/
theorem onlyChecksumStepsRaiseEvents : Obligations.OnlyChecksumStepsRaiseEvents := by
  intro i b s t d hb he hx
  obtain ⟨d', ev, -, hstep, rfl⟩ := exec_rx_next hb he hx
  refine ⟨fun hs => ?_, fun hs => ?_⟩
  · obtain ⟨rfl, -⟩ := byteStep_silent hs hstep
    simp
  · obtain ⟨e, rfl⟩ := byteStep_readChecksum_event hs hstep
    exact ⟨e, rfl⟩

/-- Settles O13: a write within the address space, read back by `Memory.read_write`. -/
theorem payloadBufferReadsBackWrites : Obligations.PayloadBufferReadsBackWrites := by
  intro m k v hk
  have hlt : k < Config.maxPayload := Nat.lt_succ_of_le hk
  refine ⟨m.write k v, if_pos hlt, ?_, fun a ha => ?_, fun hwf => Memory.wf_write m k v hwf hlt⟩
  · simp [memRead, Memory.read_write]
  · simp [memRead, Memory.read_write, ha]

/-- Settles O14: an invariant decoder feeds any chunk, with at most one event a byte. -/
theorem feedAndOnbytesComplete : Obligations.FeedAndOnbytesComplete := by
  intro s d chunk he hi
  obtain ⟨d', evs, hf, hd, -, hlen⟩ := feed_inv d chunk hi
  exact ⟨d', evs, hf, hd, hlen, exec_feed_next he hf, exec_onbytes_next he hf⟩

/-- Settles O16: the bound of `feed_spaced`, with at least one byte to any event. -/
theorem eventsAreSevenBytesApart : Obligations.EventsAreSevenBytesApart := by
  intro d d' chunk evs _ hf hne
  have hpos : 0 < chunk.length := List.length_pos_iff.2 hne
  have hspaced := feed_spaced hf
  have hone : 1 ≤ bytesToEvent d.state := by cases d.state <;> decide
  omega

/-- Settles O36: each row's transition, register by register; in `ReadLen` `CUR` is 0 and `PBUF` empty already, and a
payload row's store is read back at `CUR` alone. -/
theorem receiveStepsKeepTheOtherRegisters : Obligations.ReceiveStepsKeepTheOtherRegisters := by
  intro i s t d d' he hi hx ht
  refine ⟨?hunting, ?version, ?type, ?id, ?length, ?payload⟩
  case hunting =>
    rintro (rfl | ⟨b, rfl⟩ | rfl | rfl | ⟨b, rfl⟩) <;> obtain ⟨ev, htr⟩ := exec_rx_transition rfl he hx ht
    · obtain ⟨-, rfl, -⟩ := wp1Sync_next.1 htr
      exact ⟨rfl, rfl, rfl, rfl, rfl, rfl, fun _ => rfl⟩
    · obtain ⟨-, -, rfl, -⟩ := wp1Skip_next.1 htr
      exact ⟨rfl, rfl, rfl, rfl, rfl, rfl, fun _ => rfl⟩
    · obtain ⟨-, rfl, -⟩ := wp2Lock_next.1 htr
      exact ⟨rfl, rfl, rfl, rfl, rfl, rfl, fun _ => rfl⟩
    · obtain ⟨-, rfl, -⟩ := wp2Hold_next.1 htr
      exact ⟨rfl, rfl, rfl, rfl, rfl, rfl, fun _ => rfl⟩
    · obtain ⟨-, -, -, rfl, -⟩ := wp2Miss_next.1 htr
      exact ⟨rfl, rfl, rfl, rfl, rfl, rfl, fun _ => rfl⟩
  case version =>
    rintro ⟨b, rfl⟩
    obtain ⟨ev, htr⟩ := exec_rx_transition rfl he hx ht
    obtain ⟨-, rfl, -⟩ := rdver_next.1 htr
    exact ⟨rfl, rfl, rfl, rfl, fun _ => rfl⟩
  case type =>
    rintro ⟨b, rfl⟩
    obtain ⟨ev, htr⟩ := exec_rx_transition rfl he hx ht
    obtain ⟨-, rfl, -⟩ := rdtype_next.1 htr
    exact ⟨rfl, rfl, rfl, rfl, fun _ => rfl⟩
  case id =>
    rintro ⟨b, rfl⟩
    obtain ⟨ev, htr⟩ := exec_rx_transition rfl he hx ht
    obtain ⟨-, rfl, -⟩ := rdid_next.1 htr
    exact ⟨rfl, rfl, rfl, rfl, fun _ => rfl⟩
  case length =>
    rintro (rfl | ⟨b, rfl⟩) <;> obtain ⟨ev, htr⟩ := exec_rx_transition rfl he hx ht
    · obtain ⟨-, rfl, -⟩ := rdlenZero_next.1 htr
      exact ⟨rfl, rfl, rfl, rfl, fun _ => rfl⟩
    · obtain ⟨hs, -, -, rfl, -⟩ := rdlenData_next.1 htr
      obtain ⟨hcur, hpbuf, -⟩ := inv_readLen hi hs
      exact ⟨rfl, rfl, rfl, hcur.symm, fun a => by rw [hpbuf]⟩
  case payload =>
    rintro ⟨b, rfl | rfl⟩ <;> obtain ⟨ev, htr⟩ := exec_rx_transition rfl he hx ht
    · obtain ⟨-, -, -, rfl, -⟩ := rdpayMore_next.1 htr
      exact ⟨rfl, rfl, rfl, rfl, fun a ha => by rw [Memory.read_write, if_neg ha]⟩
    · obtain ⟨-, -, -, rfl, -⟩ := rdpayLast_next.1 htr
      exact ⟨rfl, rfl, rfl, rfl, fun a ha => by rw [Memory.read_write, if_neg ha]⟩

end Sys2Proof.Machine

/-! PROOFS. The checksum and the encoder, continued (spec/41_frame_encoder.md). One changed byte exchanges its
summand in the checksum (`cksum_set`), so a corrupted payload byte never passes (`feed_corrupted`). -/

namespace Sys2Proof.Machine

/-! ### The checksum -/

/-- The order of the bytes does not matter (R140). -/
theorem cksum_perm {s t : List Byte} (h : s.Perm t) : cksum s = cksum t := by
  apply BitVec.eq_of_toNat_eq
  rw [cksum_toNat, cksum_toNat, (h.map BitVec.toNat).sum_eq]

/-- Changing one byte exchanges its summand. -/
theorem cksum_set {s : List Byte} {k : Nat} (hk : k < s.length) (v : Byte) :
    cksum (s.set k v) + s[k] = cksum s + v := by
  induction s generalizing k with
  | nil => exact absurd hk (Nat.not_lt_zero k)
  | cons b s ih =>
    cases k with
    | zero =>
      simp only [List.set_cons_zero, List.getElem_cons_zero, cksum_cons]
      ac_rfl
    | succ k =>
      have hrest := ih (Nat.lt_of_succ_lt_succ hk)
      simp only [List.set_cons_succ, cksum_cons, List.getElem_cons_succ, BitVec.add_assoc, hrest]

/-- One byte changed to another value always shows (R140). -/
theorem cksum_set_ne {s : List Byte} {k : Nat} {v : Byte} (hk : k < s.length) (hv : s[k]? ≠ some v) :
    cksum (s.set k v) ≠ cksum s := by
  intro heq
  have hset := cksum_set hk v
  rw [heq, BitVec.add_right_inj] at hset
  exact hv (by rw [List.getElem?_eq_getElem hk, hset])

/-! ### The operations -/

/-- Beyond 128 bytes `ENCODE` is refused (R143). -/
theorem exec_encode_long {p : List Byte} (typ id : Int) (s : State) (hp : 128 < p.length) :
    exec (.encode typ id p) s = .refused .payloadTooLong := by
  simp [exec, execEncode, encodeChecked, Config.maxPayload, Nat.not_le.2 hp]

/-- Beyond 128 bytes `SENDCMD` is refused (R143). -/
theorem exec_sendcmd_long {p : List Byte} (typ id : Int) (avail : Bool) (s : State) (hp : 128 < p.length) :
    exec (.sendcmd typ id p avail) s = .refused .payloadTooLong := by
  simp [exec, execSendcmd, encodeChecked, Config.maxPayload, Nat.not_le.2 hp]

/-- The low byte does not see multiples of 256 (R142, D8). -/
theorem lowByte_add_mul (v k : Int) : lowByte (v + 256 * k) = lowByte v := by
  rw [lowByte_eq, lowByte_eq, Int.add_mul_emod_self_left]

/-! ### A corrupted frame -/

/-- A changed payload byte is a changed byte of the summed bytes, four places further (R73). -/
theorem frameBody_set (v t i : Byte) (p : List Byte) (k : Nat) (x : Byte) :
    frameBody v t i (p.set k x) = (frameBody v t i p).set (4 + k) x := by
  simp [frameBody, Nat.add_comm 4 k]

/-- The encoded frame with one payload byte changed: its checksum byte is still that of the payload. -/
theorem encodeFrame_set (typ id : Int) {p : List Byte} {k : Nat} (hk : k < p.length) (x : Byte) :
    (encodeFrame typ id p).set (6 + k) x =
      [0xAA#8, 0x55#8] ++ frameBody Config.txVersion (lowByte typ) (lowByte id) (p.set k x) ++
        [cksum (frameBody Config.txVersion (lowByte typ) (lowByte id) p)] := by
  rw [frameBody_set, List.append_assoc, ← List.set_append_left _ _ (by simp [frameBody]; omega), Nat.add_comm 6 k,
    Nat.add_comm 4 k]
  rfl

/-- A frame whose payload was changed in one byte gives a mismatch and the reset decoder (R121 b). -/
theorem feed_corrupted (typ id : Int) {p : List Byte} {k : Nat} {x : Byte} (hp : p.length ≤ 128) (hk : k < p.length)
    (hx : p[k]? ≠ some x) : feed DecoderState.reset ((encodeFrame typ id p).set (6 + k) x) =
      .next (DecoderState.reset, [.checksumMismatch]) := by
  have hsum : cksum (frameBody Config.txVersion (lowByte typ) (lowByte id) p) ≠
      cksum (frameBody Config.txVersion (lowByte typ) (lowByte id) (p.set k x)) := by
    rw [frameBody_set]
    exact (cksum_set_ne (by simp [frameBody]; omega) (by simpa [frameBody, Nat.add_comm 4 k] using hx)).symm
  rw [encodeFrame_set typ id hk x, feed_rawFrame _ _ _ _ _ (by simpa using hp) _ (.inl rfl), if_neg hsum]

/-- The length byte of an encoded frame counts its payload, which fits (R141). -/
theorem encodedFrame_len (typ id : Int) {p : List Byte} (hp : p.length ≤ 128) :
    (encodedFrame typ id p).len.toNat = p.length := by
  rw [encodedFrame, BitVec.toNat_ofNat]
  exact Nat.mod_eq_of_lt (by omega)

/-! ### The obligations -/

/-- Settles O22: the sum modulo 256, its additivity, and the two lemmas above. -/
theorem checksumProperties : Obligations.ChecksumProperties :=
  ⟨cksum_toNat, fun s t => by rw [cksum_append, BitVec.toNat_add], fun _ _ => cksum_perm,
    fun _ _ _ => cksum_set_ne⟩

/-- Settles O21: both operations check the payload's length first. -/
theorem longPayloadIsRefused : Obligations.LongPayloadIsRefused :=
  fun s typ id _ avail hp => ⟨exec_encode_long typ id s hp, exec_sendcmd_long typ id avail s hp⟩

/-- Settles O19: both operations use the low bytes of `type` and `id` alone. -/
theorem typeAndIdAreTruncated : Obligations.TypeAndIdAreTruncated := by
  intro s typ id j k p avail
  have hframe : encodeChecked (typ + 256 * j) (id + 256 * k) p = encodeChecked typ id p := by
    simp only [encodeChecked, encodeFrame, lowByte_add_mul]
  simp only [exec, execEncode, execSendcmd, hframe, and_self]

/-- Settles O49: the corrupted frame ends in a mismatch and the reset decoder, which decodes the second frame. -/
theorem corruptedPayloadByteIsDetected : Obligations.CorruptedPayloadByteIsDetected := by
  intro s typ id typ2 id2 p p2 k v he hp hp2 hk hv
  have hfeed : feed DecoderState.reset ((encodeFrame typ id p).set (6 + k) v ++ encodeFrame typ2 id2 p2) =
      .next (DecoderState.reset, [.checksumMismatch, .frameReady (encodedFrame typ2 id2 p2)]) := by
    rw [feed_append _ _ _ _ _ (feed_corrupted typ id hp hk hv), feed_encodeFrame typ2 id2 hp2 (.inl rfl)]
    rfl
  exact ⟨encodedFrame typ2 id2 p2, rfl, lowByte_toNat typ2, lowByte_toNat id2, encodedFrame_len typ2 id2 hp2, rfl,
    encodeFrame_getLast? typ2 id2 p2, exec_feed_next he hfeed⟩

end Sys2Proof.Machine

/-! PROOFS. The sensor codec's numbers (spec/42_sensor_codec.md R166 to R173). Rounding by remainder (`rnd_below_half`,
`rnd_above_half`, `rnd_tie`), its distance from the exact quotient, its monotony, and the closed form of `half_up`; the
claims about the two scalings are linear consequences. -/

namespace Sys2Proof.Machine

/-- Below six bytes `SENSDEC` reports `InsufficientPayload` (R161, R200; log entry 8). -/
theorem exec_sensdec_of_lt_six {payload : List Byte} (s : State) (h : payload.length < 6) :
    exec (.sensdec payload) s = .next ((s.raise [.insufficientPayload]).output [.ret .insufficientPayload]) := by
  simp [exec, execSensdec, sensdec, Config.sensorLen, h]

/-- `SENSDEC` goes on, with one of its two answers. -/
theorem exec_sensdec_next {s t : State} {p : List Byte} (h : exec (.sensdec p) s = .next t) :
    (∃ v, sensdec s.params p = some v ∧ t = s.output [.ret (.sensorValues v)]) ∨
      t = (s.raise [.insufficientPayload]).output [.ret .insufficientPayload] := by
  by_cases hp : p.length < 6
  · rw [exec_sensdec_of_lt_six s hp] at h
    exact .inr (Host.Outcome.next.inj h).symm
  · rw [exec_sensdec_of_six_le s (Nat.le_of_not_lt hp)] at h
    exact .inl ⟨_, sensdec_of_six_le s.params (Nat.le_of_not_lt hp), (Host.Outcome.next.inj h).symm⟩

/-! ### Rounding -/

/-- Below one half rounding takes the floor (R166). -/
theorem rnd_of_lt {n : Int} {d : Nat} (h : 2 * (n % d) < d) (tie : TieRule) : rnd tie n d = n / d :=
  if_pos h

/-- Above one half rounding takes the next integer (R166). -/
theorem rnd_of_gt {n : Int} {d : Nat} (h : d < 2 * (n % d)) (tie : TieRule) : rnd tie n d = n / d + 1 := by
  rw [rnd, if_neg (by omega), if_pos h]

/-- At an exact half the tie rule decides (R166). -/
theorem rnd_of_tie {n : Int} {d : Nat} (h : 2 * (n % d) = d) (tie : TieRule) :
    rnd tie n d = tieResult tie n (n / d) := by
  simp [rnd, h]

/-- Away from an exact half rounding does not ask the tie rule (R166). -/
theorem rnd_of_not_tie {n : Int} {d : Nat} (h : 2 * (n % d) ≠ d) (tie tie' : TieRule) :
    rnd tie n d = rnd tie' n d := by
  rcases lt_or_gt_of_ne h with hlow | hhigh
  · rw [rnd_of_lt hlow, rnd_of_lt hlow]
  · rw [rnd_of_gt hhigh, rnd_of_gt hhigh]

/-- Rounding is within one half of the exact quotient (R166): the floor times `d` is `n % d` below `n`, the next integer
times `d` the rest of `d` above it. -/
theorem rnd_within_half (tie : TieRule) (n : Int) {d : Nat} (hd : 0 < d) :
    2 * (rnd tie n d * d - n) ≤ d ∧ -(d : Int) ≤ 2 * (rnd tie n d * d - n) := by
  have hfloor : n / d * d - n = -(n % d) := by rw [Int.emod_def]; ring
  have hnext : (n / d + 1) * d - n = d - n % d := by rw [Int.emod_def]; ring
  have hnonneg := Int.emod_nonneg n (b := d) (by omega)
  have hlt := Int.emod_lt_of_pos n (b := d) (by omega)
  rcases lt_trichotomy (2 * (n % d)) d with hlow | htie | hhigh
  · rw [rnd_of_lt hlow, hfloor]
    omega
  · rcases rnd_floor_or_next tie n d with e | e
    · rw [e, hfloor]
      omega
    · rw [e, hnext]
      omega
  · rw [rnd_of_gt hhigh, hnext]
    omega

/-- Rounding never decreases (R170): between two integers it steps up once, and nothing lies between two ties. -/
theorem rnd_mono (tie : TieRule) {n n' : Int} {d : Nat} (hd : 0 < d) (h : n ≤ n') : rnd tie n d ≤ rnd tie n' d := by
  have hquot : n / d ≤ n' / d := Int.ediv_le_ediv (by omega) h
  have hn := rnd_floor_or_next tie n d
  have hn' := rnd_floor_or_next tie n' d
  rcases hquot.lt_or_eq with hlt | heq
  · omega
  · have hsplit := Int.mul_ediv_add_emod n d
    have hsplit' := Int.mul_ediv_add_emod n' d
    rw [← heq] at hsplit'
    rcases lt_or_ge (2 * (n % d)) d with hlow | hhigh
    · rw [rnd_of_lt hlow]
      omega
    · rcases h.lt_or_eq with hlt | rfl
      · rw [rnd_of_gt (n := n') (by omega)]
        omega
      · exact le_rfl

/-- `half_up` adds one half and takes the floor (R167, R168). -/
theorem rnd_halfUp (n : Int) {d : Nat} (hd : 0 < d) : rnd .halfUp n d = (2 * n + d) / (2 * d) := by
  have hsplit := Int.mul_ediv_add_emod n d
  have hnonneg := Int.emod_nonneg n (b := d) (by omega)
  have hlt := Int.emod_lt_of_pos n (b := d) (by omega)
  rw [eq_comm]
  rcases lt_or_ge (2 * (n % d)) d with hlow | hhigh
  · rw [rnd_of_lt hlow, Int.ediv_eq_iff_of_pos (by omega)]
    constructor <;> linarith
  · have hup : rnd .halfUp n d = n / d + 1 := by
      rcases hhigh.lt_or_eq with hgt | htie
      · exact rnd_of_gt hgt _
      · exact rnd_of_tie htie.symm _
    rw [hup, Int.ediv_eq_iff_of_pos (by omega)]
    constructor <;> linarith

/-! ### The two scalings -/

/-- The exact halves of the humidity are the odd multiples of 8000 hex (R173). -/
theorem humidity_tie_iff (raw : Raw20) :
    2 * ((raw.toNat * 10000 : Int) % (2 ^ 20 : Nat)) = (2 ^ 20 : Nat) ↔ raw.toNat % 0x10000 = 0x08000 := by
  omega

/-- The exact halves of the temperature are the odd multiples of 4000 hex (R173). -/
theorem temperature_tie_iff (raw : Raw20) :
    2 * ((raw.toNat * 20000 - 5000 * 2 ^ 20 : Int) % (2 ^ 20 : Nat)) = (2 ^ 20 : Nat) ↔
      raw.toNat % 0x08000 = 0x04000 := by
  omega

/-- The humidity never decreases (R170). -/
theorem humidityHundredths_mono (tie : TieRule) {raw raw' : Raw20} (h : raw.toNat ≤ raw'.toNat) :
    humidityHundredths tie raw ≤ humidityHundredths tie raw' :=
  rnd_mono tie (by decide) (by omega)

/-- The temperature never decreases (R170). -/
theorem temperatureHundredths_mono (tie : TieRule) {raw raw' : Raw20} (h : raw.toNat ≤ raw'.toNat) :
    temperatureHundredths tie raw ≤ temperatureHundredths tie raw' :=
  rnd_mono tie (by decide) (by omega)

/-! ### The fields of a payload -/

/-- The first six bytes of a payload, by layout (R162). -/
def sensorPayload (layout : SensorLayout) (b0 b1 b2 b3 b4 st : Byte) : List Byte :=
  match layout with
  | .statusLast => [b0, b1, b2, b3, b4, st]
  | .statusFirst => [st, b0, b1, b2, b3, b4]

@[simp] theorem sensorPayload_length (layout : SensorLayout) (b0 b1 b2 b3 b4 st : Byte) :
    (sensorPayload layout b0 b1 b2 b3 b4 st).length = 6 := by
  cases layout <;> rfl

/-- The three values of a payload in terms of its six bytes (R163, R164, R167 to R169). -/
theorem sensorValues_sensorPayload (p : Params) (b0 b1 b2 b3 b4 st : Byte) (rest : List Byte) :
    ((sensorValues p (sensorPayload p.sensorLayout b0 b1 b2 b3 b4 st ++ rest)).hum100.toNat : Int) =
        rnd p.tieRule ((b0.toNat * 4096 + b1.toNat * 16 + b2.toNat / 16 : Nat) * 10000) (2 ^ 20) ∧
      (sensorValues p (sensorPayload p.sensorLayout b0 b1 b2 b3 b4 st ++ rest)).temp100.toInt =
        rnd p.tieRule ((b2.toNat % 16 * 65536 + b3.toNat * 256 + b4.toNat : Nat) * 20000 - 5000 * 2 ^ 20) (2 ^ 20) ∧
      (sensorValues p (sensorPayload p.sensorLayout b0 b1 b2 b3 b4 st ++ rest)).status = st := by
  rw [← rawHumidity_toNat, ← rawTemperature_toNat, ← humidityHundredths, ← temperatureHundredths,
    ← hum100_toNat, ← temp100_toInt]
  cases hl : p.sensorLayout <;> simp only [sensorValues, hl] <;> exact ⟨rfl, rfl, rfl⟩

/-! ### The obligations -/

/-- Settles O26: the distance of rounding, and `tieResult` at a half, where one of two neighbours is even. -/
theorem roundingIsToNearest : Obligations.RoundingIsToNearest := by
  refine fun tie n d hd => ⟨rnd_within_half tie n hd, fun htie => ?_⟩
  simp only [rnd_of_tie htie, tieResult]
  refine ⟨trivial, trivial, ?_⟩
  split_ifs <;> omega

/-- Settles O27: the closed form of `half_up`, reduced by the common factor of both scalings. -/
theorem halfUpClosedForms : Obligations.HalfUpClosedForms := by
  intro raw
  have hhum := hum100_toNat .halfUp raw
  rw [humidityHundredths, rnd_halfUp _ (by decide)] at hhum
  rw [temp100_toInt, temperatureHundredths, rnd_halfUp _ (by decide), Nat.shiftRight_eq_div_pow,
    Nat.shiftRight_eq_div_pow]
  omega

/-- Settles O28: the ranges of the two scalings; their upper ends by the distance of rounding; monotony of rounding. -/
theorem sensorValuesStayInRange : Obligations.SensorValuesStayInRange := by
  intro tie raw raw'
  have hhum := hum100_toNat tie raw
  have hhum' := hum100_toNat tie raw'
  obtain ⟨hlow, hhigh⟩ := humidityHundredths_range tie raw
  obtain ⟨tlow, thigh⟩ := temperatureHundredths_range tie raw
  obtain ⟨hnear, hnear'⟩ := rnd_within_half tie (raw.toNat * 10000) (d := 2 ^ 20) (by decide)
  obtain ⟨tnear, tnear'⟩ := rnd_within_half tie (raw.toNat * 20000 - 5000 * 2 ^ 20) (d := 2 ^ 20) (by decide)
  rw [← humidityHundredths] at hnear hnear'
  rw [← temperatureHundredths] at tnear tnear'
  rw [temp100_toInt, temp100_toInt]
  refine ⟨by omega, tlow, thigh, by omega, by omega, fun hle => ⟨?_, temperatureHundredths_mono tie hle⟩⟩
  have := humidityHundredths_mono tie hle
  omega

/-- Settles O29: the ties by their remainders; away from them the tie rule is not asked; at them `tieResult` answers. -/
theorem tieRulesDifferOnlyAtTheTies : Obligations.TieRulesDifferOnlyAtTheTies := by
  intro raw
  have hraw := raw.isLt
  simp only [temp100_toInt, temperatureHundredths]
  refine ⟨⟨fun h => ⟨raw.toNat / 0x10000, by omega, by omega⟩, fun ⟨k, _, hk⟩ => by omega⟩,
    ⟨fun h => ⟨raw.toNat / 0x08000, by omega, by omega⟩, fun ⟨k, _, hk⟩ => by omega⟩,
    fun hno t t' => ?humAgree, fun hno t t' => ?tempAgree, fun k hle hk => ?negative, fun hk => ?leastHum,
    fun hk => ?leastTemp⟩
  case humAgree =>
    have hne : raw.toNat % 0x10000 ≠ 0x08000 := fun h => hno ⟨raw.toNat / 0x10000, by omega⟩
    rw [hum100, humidityHundredths, rnd_of_not_tie (mt (humidity_tie_iff raw).1 hne) t t']
    rfl
  case tempAgree =>
    have hne : raw.toNat % 0x08000 ≠ 0x04000 := fun h => hno ⟨raw.toNat / 0x08000, by omega⟩
    rw [temp100, temperatureHundredths, rnd_of_not_tie (mt (temperature_tie_iff raw).1 hne) t t']
    rfl
  case negative =>
    have htie := (temperature_tie_iff raw).2 (by omega)
    simp only [rnd_of_tie htie, tieResult]
    split_ifs <;> omega
  case leastHum =>
    obtain rfl : raw = 0x08000#20 := BitVec.eq_of_toNat_eq hk
    decide
  case leastTemp =>
    rw [hk]
    decide

/-- Settles O24: below six bytes the report is raised and answered. -/
theorem shortSensorPayloadIsReported : Obligations.ShortSensorPayloadIsReported :=
  fun s _ h => exec_sensdec_of_lt_six s h

/-- Settles O23: the three values read off the six bytes, in both layouts. -/
theorem sensdecReadsTheFields : Obligations.SensdecReadsTheFields := by
  intro s b0 b1 b2 b3 b4 st rest
  obtain ⟨hhum, htemp, hstatus⟩ := sensorValues_sensorPayload s.params b0 b1 b2 b3 b4 st rest
  have hsix : 6 ≤ (sensorPayload s.params.sensorLayout b0 b1 b2 b3 b4 st ++ rest).length := by
    rw [List.length_append, sensorPayload_length]
    omega
  exact ⟨_, exec_sensdec_of_six_le s hsix, hhum, htemp, hstatus⟩

end Sys2Proof.Machine

/-! PROOFS. The engine on a connection. What `FEED`, `ONBYTES` and `SENSDEC` have done where they go on
(`exec_feed_inv`, `exec_onbytes_inv`, `exec_sensdec_next`), the frame of every operation, and that a chunk and a command
commute (spec/20_memory.md R67). -/

namespace Sys2Proof.Machine

/-! ### The operations -/

/-- What `FEED` has done where it goes on (R118). -/
theorem exec_feed_inv {s t : State} {bytes : List Byte} (h : exec (.feed bytes) s = .next t) :
    ∃ d d' evs, s.engine = some d ∧ feed d bytes = .next (d', evs) ∧
      t = (s.setEngine (some d')).raise (evs.map Event.decode) := by
  cases hf : feedEngine bytes s with
  | fault r => simp [exec, execFeed, hf] at h
  | refused r => simp [exec, execFeed, hf] at h
  | next p =>
    obtain ⟨u, evs⟩ := p
    obtain rfl : u = t := by simpa [exec, execFeed, hf] using h
    obtain ⟨d, d', he, hfeed, hu⟩ := feedEngine_inv s u bytes evs hf
    exact ⟨d, d', evs, he, hfeed, hu⟩

/-- What `ONBYTES` has done where it goes on (R183). -/
theorem exec_onbytes_inv {s t : State} {chunk : List Byte} (h : exec (.onbytes chunk) s = .next t) :
    ∃ d d' evs, s.engine = some d ∧ feed d chunk = .next (d', evs) ∧
      t = dispatchAll ((s.setEngine (some d')).raise (evs.map Event.decode)) evs := by
  cases hf : feedEngine chunk s with
  | fault r => simp [exec, execOnbytes, hf] at h
  | refused r => simp [exec, execOnbytes, hf] at h
  | next p =>
    obtain ⟨u, evs⟩ := p
    obtain rfl : dispatchAll u evs = t := by simpa [exec, execOnbytes, hf] using h
    obtain ⟨d, d', he, hfeed, rfl⟩ := feedEngine_inv s u chunk evs hf
    exact ⟨d, d', evs, he, hfeed, rfl⟩

/-- Without a connection `ONBYTES` is refused (R193). -/
theorem exec_onbytes_none {s : State} (chunk : List Byte) (he : s.engine = none) :
    exec (.onbytes chunk) s = .refused .noConnection := by
  simp [exec, execOnbytes, feedEngine, he]

/-- Without a connection `FEED` is refused (log entry 18). -/
theorem exec_feed_none {s : State} (bytes : List Byte) (he : s.engine = none) :
    exec (.feed bytes) s = .refused .noConnection := by
  simp [exec, execFeed, feedEngine, he]

/-! ### The dispatch -/

/-- No return value is dispatched: those go to the callers of commands (R180). -/
theorem dispatchOutputs_isReturn (p : Params) (n : Nat) (e : DecodeEvent) :
    ∀ o ∈ (dispatchOutputs p n e).1, o.isReturn = false := by
  cases e with
  | checksumMismatch => simp [dispatchOutputs, Output.isReturn]
  | frameReady f =>
    by_cases ht : f.typ = p.sensorType
    · by_cases hl : Config.sensorLen ≤ f.len.toNat
      · cases hv : sensdec p f.payload <;> simp [dispatchOutputs, ht, hl, hv, Output.isReturn]
      · simp [dispatchOutputs, ht, hl, Output.isReturn]
    · simp [dispatchOutputs, ht, Output.isReturn]

/-- The same along a list of events. -/
theorem dispatchListOutputs_isReturn (p : Params) (n : Nat) (es : List DecodeEvent) :
    ∀ o ∈ (dispatchListOutputs p n es).1, o.isReturn = false := by
  induction es generalizing n with
  | nil => simp [dispatchListOutputs]
  | cons e es ih =>
    intro o ho
    rcases List.mem_append.1 ho with ho | ho
    · exact dispatchOutputs_isReturn p n e o ho
    · exact ih _ o ho

/-- Among the return values dispatched outputs have no place. -/
theorem filter_dispatched (p : Params) (n : Nat) (es : List DecodeEvent) :
    (dispatchListOutputs p n es).1.filter Output.isReturn = [] :=
  List.filter_eq_nil_iff.2 fun o ho => by simp [dispatchListOutputs_isReturn p n es o ho]

/-- The transport's answer: TX grows by the frame or by nothing, the caller is told, and nothing else changes (R188). -/
theorem offer_eq (bytes : List Byte) (avail : Bool) (s : State) :
    offer bytes avail s = (s.transmit (if avail then bytes else [])).output
      [.ret (if avail then .accepted else .unavailable)] := by
  cases avail
  · simp [State.transmit]
  · rfl

/-! ### The obligations -/

/-- Settles O33: without a connection there is no decoder to feed. -/
theorem onbytesWithoutConnectionIsRefused : Obligations.OnbytesWithoutConnectionIsRefused :=
  fun _ chunk he => ⟨exec_onbytes_none chunk he, exec_feed_none chunk he⟩

/-- Settles O31: the four cases of the dispatch; a valid frame's payload is as long as its length says. -/
theorem dispatchOfDecodeEvents : Obligations.DispatchOfDecodeEvents := by
  intro s f hf
  obtain ⟨hlen, -, -⟩ := hf
  refine ⟨rfl, fun hne => ?other, fun heq hshort => ?short, fun heq hlong => ?reading⟩
  case other => simp [dispatchEvent_eq, dispatchOutputs, hne]
  case short =>
    have hle : ¬ Config.sensorLen ≤ f.len.toNat := Nat.not_le.2 hshort
    simp [dispatchEvent_eq, dispatchOutputs, heq, hle]
  case reading =>
    have hsix : 6 ≤ f.payload.length := hlen ▸ hlong
    have hle : Config.sensorLen ≤ f.len.toNat := hlong
    refine ⟨sensorValues s.params f.payload, Config.timestamp s.draws, exec_sensdec_of_six_le s hsix, ?_⟩
    simp [dispatchEvent_eq, dispatchOutputs, heq, hle, sensdec_of_six_le s.params hsix]

/-- Settles O35: each operation's inversion lemma names all that it writes. -/
theorem operationsKeepTheOtherFields : Obligations.OperationsKeepTheOtherFields := by
  intro i s t h
  refine ⟨?receive, ?feed, ?onbytes, ?encode, ?sensdec, ?sendcmd, ?connection⟩
  case receive =>
    rintro ⟨b, hb⟩
    have hrx : ∃ f, exec i s = rxApply f s := by
      rcases hb with hb | rfl
      · exact ⟨_, exec_rx i s b hb⟩
      · exact ⟨badstate b, rfl⟩
    obtain ⟨f, hrx⟩ := hrx
    obtain ⟨d, d', ev, -, -, rfl⟩ := rxApply_next f s t (hrx ▸ h)
    rfl
  case feed =>
    rintro ⟨c, rfl⟩
    obtain ⟨d, d', evs, -, -, rfl⟩ := exec_feed_inv h
    rfl
  case onbytes =>
    rintro ⟨c, rfl⟩
    obtain ⟨d, d', evs, -, -, rfl⟩ := exec_onbytes_inv h
    rw [dispatchAll_eq]
    rfl
  case encode =>
    rintro ⟨ty, id, p, rfl⟩
    obtain ⟨-, rfl⟩ := exec_encode_next.1 h
    rfl
  case sensdec =>
    rintro ⟨p, rfl⟩
    obtain ⟨v, -, rfl⟩ | rfl := exec_sensdec_next h
    · rfl
    · rfl
  case sendcmd =>
    rintro ⟨ty, id, p, a, rfl⟩
    obtain ⟨-, rfl⟩ := exec_sendcmd_next.1 h
    rw [offer_eq]
    rfl
  case connection =>
    rintro (rfl | rfl)
    · obtain rfl := Host.Outcome.next.inj ((exec_connect s).symm.trans h)
      rfl
    · obtain rfl := Host.Outcome.next.inj ((exec_teardown s).symm.trans h)
      rfl

/-- Settles O34: the command does not look at the decoder, and the chunk does not look at TX or at the outputs; only the
place of the command's return value among the notifications differs. -/
theorem directionsAreIndependent : Obligations.DirectionsAreIndependent := by
  intro s a b chunk typ id p avail ha hb
  obtain ⟨d, d', evs, he, hf, rfl⟩ := exec_onbytes_inv ha
  obtain ⟨hp, rfl⟩ := exec_sendcmd_next.1 hb
  have he' : (offer (encodeFrame typ id p) avail s).engine = some d := by rw [offer_eq]; exact he
  refine ⟨_, _, exec_sendcmd_next.2 ⟨hp, rfl⟩, exec_onbytes_next he' hf, ?_⟩
  simp [offer_eq, dispatchAll_eq, List.filter_cons, filter_dispatched, Output.isReturn]

end Sys2Proof.Machine

/-! PROOFS. The machine step. A step that goes on idles, runs a call, or runs one byte step and dispatches its event
(`step_next`). The machine invariant (`step_keeps_inv`), the growth of the streams (`step_grows`) and the delivery of a
chunk byte by byte follow from these three cases. -/

namespace Sys2Proof.Machine

/-! ### What a step can do -/

/-- A received byte without a connection is refused (R193; log entry 18). -/
theorem step_byte_none {s : State} {b : Byte} {rest : List Input} (hin : s.input = .byte b :: rest)
    (he : s.engine = none) : step s = .refused .noConnection := by
  simp [step, fetch, hin, he]

/-- A step on a received byte goes on only where the byte step does. -/
theorem byteStep_of_step {s t : State} {d : DecoderState} {b : Byte} {rest : List Input}
    (hin : s.input = .byte b :: rest) (he : s.engine = some d) (h : step s = .next t) :
    ∃ d' ev, byteStep d b = .next (d', ev) := by
  cases hf : fetchInstr d b with
  | fault r => simp [step, fetch, hin, he, hf] at h
  | refused r => simp [step, fetch, hin, he, hf] at h
  | next i =>
    cases hx : exec i (s.setInput rest) with
    | fault r => simp [step, fetch, hin, he, hf, hx] at h
    | refused r => simp [step, fetch, hin, he, hf, hx] at h
    | next u =>
      obtain ⟨d', ev, -, hb, -⟩ := exec_rx_next (fetchInstr_rxByte hf) (s := s.setInput rest) he hx
      exact ⟨d', ev, hb⟩

/-- What a step that goes on has done. -/
theorem step_next {s t : State} (h : step s = .next t) :
    (s.input = [] ∧ t = s) ∨
    (∃ c rest, s.input = .call c :: rest ∧ exec c.instr (s.setInput rest) = .next t) ∨
    (∃ b rest d d' ev, s.input = .byte b :: rest ∧ s.engine = some d ∧ byteStep d b = .next (d', ev) ∧
      t = dispatchAll (((s.setInput rest).setEngine (some d')).raise (ev.toList.map Event.decode)) ev.toList) := by
  cases hin : s.input with
  | nil =>
    rw [step_idle hin] at h
    exact .inl ⟨rfl, (Host.Outcome.next.inj h).symm⟩
  | cons x rest =>
    cases x with
    | call c => exact .inr (.inl ⟨c, rest, rfl, by rw [← step_call s c rest hin, h]⟩)
    | byte b =>
      cases he : s.engine with
      | none => rw [step_byte_none hin he] at h; cases h
      | some d =>
        obtain ⟨d', ev, hb⟩ := byteStep_of_step hin he h
        rw [step_byte s d d' b rest ev hin he hb] at h
        exact .inr (.inr ⟨b, rest, d, d', ev, rfl, rfl, hb, (Host.Outcome.next.inj h).symm⟩)

/-! ### The machine invariant -/

/-- Writing an invariant decoder, or none, keeps the machine invariant. -/
theorem setEngine_inv {s : State} {e : Option DecoderState} (hi : s.Inv) (he : ∀ d, e = some d → d.Inv) :
    (s.setEngine e).Inv :=
  ⟨he, hi.events, hi.outputs⟩

/-- Raising the codec's failure keeps the machine invariant. -/
theorem raise_insufficientPayload_inv {s : State} (hi : s.Inv) : (s.raise [.insufficientPayload]).Inv := by
  refine ⟨hi.decoder, fun e he => ?_, hi.outputs⟩
  rcases List.mem_append.1 he with he | he
  · exact hi.events e he
  · rw [List.mem_singleton.1 he]
    trivial

/-- One byte fed is one byte step. -/
theorem feed_singleton {d d' : DecoderState} {b : Byte} {ev : Option DecodeEvent} (h : byteStep d b = .next (d', ev)) :
    feed d [b] = .next (d', ev.toList) := by
  simp [feed_cons d d' b [] ev h]

/-- Feeding the connection raises valid frames only and keeps the machine invariant. -/
theorem feed_keeps_inv {s : State} {d d' : DecoderState} {chunk : List Byte} {evs : List DecodeEvent} (hi : s.Inv)
    (he : s.engine = some d) (hf : feed d chunk = .next (d', evs)) :
    ((s.setEngine (some d')).raise (evs.map Event.decode)).Inv ∧ ∀ f, .frameReady f ∈ evs → f.valid := by
  obtain ⟨d1, evs1, hf1, hd, hv, -⟩ := feed_inv d chunk (hi.decoder d he)
  obtain ⟨rfl, rfl⟩ : d1 = d' ∧ evs1 = evs := by simpa [hf1] using hf
  exact ⟨raise_setEngine_inv s d1 evs1 hi hd hv, hv⟩

/-- Every call that goes on keeps the machine invariant. -/
theorem exec_call_keeps_inv {s t : State} {c : HostCall} (hi : s.Inv) (h : exec c.instr s = .next t) : t.Inv := by
  cases c with
  | connect =>
    obtain rfl := Host.Outcome.next.inj ((exec_connect s).symm.trans h)
    exact setEngine_inv hi fun d hd => Option.some.inj hd ▸ decoderReset_inv
  | teardown =>
    obtain rfl := Host.Outcome.next.inj ((exec_teardown s).symm.trans h)
    exact setEngine_inv hi fun d hd => nomatch hd
  | onbytes chunk =>
    obtain ⟨d, d', evs, he, hf, rfl⟩ := exec_onbytes_inv h
    obtain ⟨hfed, hv⟩ := feed_keeps_inv hi he hf
    exact dispatchAll_inv _ evs hfed hv
  | feed bytes =>
    obtain ⟨d, d', evs, he, hf, rfl⟩ := exec_feed_inv h
    exact (feed_keeps_inv hi he hf).1
  | encode typ id p =>
    obtain ⟨-, rfl⟩ := exec_encode_next.1 h
    exact output_inv s _ hi (by simp [Output.ok])
  | sendcmd typ id p avail =>
    obtain ⟨-, rfl⟩ := exec_sendcmd_next.1 h
    cases avail with
    | true => exact output_inv (s.transmit _) _ ⟨hi.decoder, hi.events, hi.outputs⟩ (by simp [Output.ok])
    | false => exact output_inv s _ hi (by simp [Output.ok])
  | sensdec p =>
    obtain ⟨v, hv, rfl⟩ | rfl := exec_sensdec_next h
    · exact output_inv s _ hi (by simpa [Output.ok] using sensdec_inRange s.params p v hv)
    · exact output_inv _ _ (raise_insufficientPayload_inv hi) (by simp [Output.ok])

/-- Every step that goes on keeps the machine invariant. -/
theorem step_keeps_inv {s t : State} (hi : s.Inv) (h : step s = .next t) : t.Inv := by
  obtain ⟨-, rfl⟩ | ⟨c, rest, -, hx⟩ | ⟨b, rest, d, d', ev, -, he, hb, rfl⟩ := step_next h
  case inl => exact hi
  case inr.inl => exact exec_call_keeps_inv (setInput_inv s rest hi) hx
  case inr.inr =>
    obtain ⟨hfed, hv⟩ := feed_keeps_inv (setInput_inv s rest hi) he (feed_singleton hb)
    exact dispatchAll_inv _ _ hfed hv

/-! ### The growth of the streams -/

/-- What one step sends: the encoded frame of an accepted command (R52, R188). -/
def sentBy : List Input → List Byte
  | .call (.sendcmd typ id p true) :: _ => encodeFrame typ id p
  | _ => []

/-- What an operation leaves: the parameters, the inputs still to come, and all that stands in the three streams; TX
grows by `sent` (R32, R52, R207). -/
structure State.Grows (s t : State) (sent : List Byte) : Prop where
  params  : t.params = s.params
  input   : t.input = s.input
  tx      : t.tx = s.tx ++ sent
  events  : ∃ es, t.events = s.events ++ es
  outputs : ∃ os, t.outputs = s.outputs ++ os

/-- Feeding the connection sends nothing. -/
theorem grows_fed (s : State) (e : Option DecoderState) (es : List Event) : s.Grows ((s.setEngine e).raise es) [] :=
  ⟨rfl, rfl, (List.append_nil _).symm, ⟨es, rfl⟩, ⟨[], (List.append_nil _).symm⟩⟩

/-- Writing the engine sends nothing. -/
theorem grows_setEngine (s : State) (e : Option DecoderState) : s.Grows (s.setEngine e) [] :=
  ⟨rfl, rfl, (List.append_nil _).symm, ⟨[], (List.append_nil _).symm⟩, ⟨[], (List.append_nil _).symm⟩⟩

/-- An output sends nothing. -/
theorem grows_output (s : State) (os : List Output) : s.Grows (s.output os) [] :=
  ⟨rfl, rfl, (List.append_nil _).symm, ⟨[], (List.append_nil _).symm⟩, ⟨os, rfl⟩⟩

/-- The dispatch sends nothing. -/
theorem State.Grows.dispatched {s t : State} {sent : List Byte} (h : s.Grows t sent) (evs : List DecodeEvent) :
    s.Grows (dispatchAll t evs) sent := by
  obtain ⟨os, hos⟩ := h.outputs
  rw [dispatchAll_eq]
  exact ⟨h.params, h.input, h.tx, h.events, ⟨os ++ _, by rw [hos, List.append_assoc]⟩⟩

/-- A call appends to the streams, and to TX the frame of an accepted command alone. -/
theorem exec_call_grows {s t : State} {c : HostCall} (rest : List Input) (h : exec c.instr s = .next t) :
    s.Grows t (sentBy (.call c :: rest)) := by
  cases c with
  | connect =>
    obtain rfl := Host.Outcome.next.inj ((exec_connect s).symm.trans h)
    exact grows_setEngine s _
  | teardown =>
    obtain rfl := Host.Outcome.next.inj ((exec_teardown s).symm.trans h)
    exact grows_setEngine s _
  | onbytes chunk =>
    obtain ⟨d, d', evs, -, -, rfl⟩ := exec_onbytes_inv h
    exact (grows_fed s _ _).dispatched evs
  | feed bytes =>
    obtain ⟨d, d', evs, -, -, rfl⟩ := exec_feed_inv h
    exact grows_fed s _ _
  | encode typ id p =>
    obtain ⟨-, rfl⟩ := exec_encode_next.1 h
    exact grows_output s _
  | sendcmd typ id p avail =>
    obtain ⟨-, rfl⟩ := exec_sendcmd_next.1 h
    cases avail with
    | true => exact ⟨rfl, rfl, rfl, ⟨[], (List.append_nil _).symm⟩, ⟨_, rfl⟩⟩
    | false => exact grows_output s _
  | sensdec p =>
    obtain ⟨v, -, rfl⟩ | rfl := exec_sensdec_next h
    · exact grows_output s _
    · exact ⟨rfl, rfl, (List.append_nil _).symm, ⟨_, rfl⟩, ⟨_, rfl⟩⟩

/-- A step consumes one input, if there is one, and otherwise only appends (R51, R52, R207). -/
theorem step_grows {s t : State} (h : step s = .next t) :
    (s.setInput t.input).Grows t (sentBy s.input) ∧ (s.input ≠ [] → ∃ x, s.input = x :: t.input) := by
  obtain ⟨hin, rfl⟩ | ⟨c, rest, hin, hx⟩ | ⟨b, rest, d, d', ev, hin, -, -, rfl⟩ := step_next h
  case inl =>
    have hsent : sentBy t.input = [] := by rw [hin]; rfl
    rw [hsent]
    exact ⟨grows_setEngine t t.engine, fun hne => absurd hin hne⟩
  case inr.inl =>
    have hg := exec_call_grows rest hx
    have ht : t.input = rest := hg.input
    rw [hin, ht]
    exact ⟨hg, fun _ => ⟨_, rfl⟩⟩
  case inr.inr =>
    have hg := (grows_fed (s.setInput rest) (some d') (ev.toList.map Event.decode)).dispatched ev.toList
    rw [hg.input, hin]
    exact ⟨hg, fun _ => ⟨_, rfl⟩⟩

/-! ### What goes on and what is refused -/

/-- A result that goes on where no refusal is named, and is the named refusal where one is. -/
def GoesOnUnless (refusal : Option Refusal) (result : Result) : Prop :=
  match refusal with
  | none => ∃ t, result = .next t
  | some r => result = .refused r

/-- A call goes on from an invariant state unless it is a delivery without a connection or its payload is too long
(R143, R193). -/
theorem exec_call_goesOnUnless {s : State} {c : HostCall} {rest : List Input} (hi : s.Inv)
    (hin : s.input = .call c :: rest) : GoesOnUnless s.refusedMove (exec c.instr (s.setInput rest)) := by
  cases c with
  | connect =>
    simp only [State.refusedMove, hin]
    exact ⟨_, exec_connect _⟩
  | teardown =>
    simp only [State.refusedMove, hin]
    exact ⟨_, exec_teardown _⟩
  | onbytes chunk =>
    cases he : s.engine with
    | none =>
      simp only [State.refusedMove, hin, he, if_true]
      exact exec_onbytes_none chunk he
    | some d =>
      obtain ⟨d', evs, hf, -⟩ := feed_inv d chunk (hi.decoder d he)
      simp only [State.refusedMove, hin, he, reduceCtorEq, if_false]
      exact ⟨_, exec_onbytes_next he hf⟩
  | feed bytes =>
    cases he : s.engine with
    | none =>
      simp only [State.refusedMove, hin, he, if_true]
      exact exec_feed_none bytes he
    | some d =>
      obtain ⟨d', evs, hf, -⟩ := feed_inv d bytes (hi.decoder d he)
      simp only [State.refusedMove, hin, he, reduceCtorEq, if_false]
      exact ⟨_, exec_feed_next he hf⟩
  | sendcmd typ id p avail =>
    simp only [State.refusedMove, hin]
    split_ifs with hp
    · exact ⟨_, exec_sendcmd_next.2 ⟨hp, rfl⟩⟩
    · exact exec_sendcmd_long typ id avail _ (Nat.lt_of_not_le hp)
  | encode typ id p =>
    simp only [State.refusedMove, hin]
    split_ifs with hp
    · exact ⟨_, exec_encode_next.2 ⟨hp, rfl⟩⟩
    · exact exec_encode_long typ id _ (Nat.lt_of_not_le hp)
  | sensdec p =>
    simp only [State.refusedMove, hin]
    rcases Nat.lt_or_ge p.length 6 with hp | hp
    · exact ⟨_, exec_sensdec_of_lt_six _ hp⟩
    · exact ⟨_, exec_sensdec_of_six_le _ hp⟩

/-- A step goes on from an invariant state unless the next input has no meaning (R214). -/
theorem step_goesOnUnless {s : State} (hi : s.Inv) : GoesOnUnless s.refusedMove (step s) := by
  cases hin : s.input with
  | nil =>
    simp only [State.refusedMove, hin]
    exact ⟨s, step_idle hin⟩
  | cons x rest =>
    cases x with
    | call c =>
      rw [step_call s c rest hin]
      exact exec_call_goesOnUnless hi hin
    | byte b =>
      cases he : s.engine with
      | none =>
        simp only [State.refusedMove, hin, he, if_true]
        exact step_byte_none hin he
      | some d =>
        obtain ⟨d', ev, hb, -⟩ := byteStep_inv d b (hi.decoder d he)
        simp only [State.refusedMove, hin, he, reduceCtorEq, if_false]
        exact ⟨_, step_byte s d d' b rest ev hin he hb⟩

/-! ### A chunk, byte by byte -/

/-- The inputs still to come play no part in `ONBYTES`. -/
theorem exec_onbytes_setInput {s t : State} {chunk : List Byte} (rest : List Input)
    (h : exec (.onbytes chunk) s = .next t) : exec (.onbytes chunk) (s.setInput rest) = .next (t.setInput rest) := by
  obtain ⟨d, d', evs, he, hf, rfl⟩ := exec_onbytes_inv h
  rw [exec_onbytes_next (s := s.setInput rest) he hf, dispatchAll_eq, dispatchAll_eq]
  rfl

/-- A step on a received byte is `ONBYTES` of that byte (R183's note, R10 a). -/
theorem step_byte_eq_onbytes {s : State} {d d' : DecoderState} {b : Byte} {rest : List Input}
    {ev : Option DecodeEvent} (hin : s.input = .byte b :: rest) (he : s.engine = some d)
    (hb : byteStep d b = .next (d', ev)) : step s = exec (.onbytes [b]) (s.setInput rest) := by
  rw [step_byte s d d' b rest ev hin he hb, exec_onbytes_next (s := s.setInput rest) he (feed_singleton hb)]

/-- The bytes of a chunk delivered one by one, by induction over the chunk: the first byte is `ONBYTES` of itself, and
cutting it off the chunk changes nothing (R120). -/
theorem runSteps_bytes (chunk : List Byte) (rest : List Input) {s : State} (hi : s.Inv) (hne : s.engine ≠ none)
    (hin : s.input = chunk.map Input.byte ++ rest) :
    runSteps chunk.length s = exec (.onbytes chunk) (s.setInput rest) := by
  induction chunk generalizing s with
  | nil =>
    obtain ⟨d, he⟩ := Option.ne_none_iff_exists'.1 hne
    obtain rfl : s.input = rest := hin
    rw [exec_onbytes_silent (s := s.setInput s.input) he (feed_nil d), ← he]
    rfl
  | cons b chunk ih =>
    obtain ⟨d, he⟩ := Option.ne_none_iff_exists'.1 hne
    obtain ⟨d', ev, hb, -, -⟩ := byteStep_inv d b (hi.decoder d he)
    obtain ⟨t, ht⟩ : ∃ t, step s = .next t := ⟨_, step_byte s d d' b _ ev hin he hb⟩
    have hone : exec (.onbytes [b]) (s.setInput (chunk.map Input.byte ++ rest)) = .next t :=
      (step_byte_eq_onbytes hin he hb).symm.trans ht
    have hcut : exec (.onbytes (b :: chunk)) (s.setInput rest) = exec (.onbytes chunk) (t.setInput rest) :=
      exec_onbytes_append (exec_onbytes_setInput rest hone)
    obtain ⟨d0, d1, evs, -, -, rfl⟩ := exec_onbytes_inv hone
    rw [hcut, List.length_cons, runSteps, ht]
    exact ih (step_keeps_inv hi ht) (by simp) (by rw [dispatchAll_eq]; rfl)

/-! ### The obligations -/

/-- Settles O39: `step_keeps_inv`. -/
theorem stepKeepsTheInvariant : Obligations.StepKeepsTheInvariant :=
  fun _ _ => step_keeps_inv

/-- Settles O17: `runSteps_bytes`. -/
theorem onbytesIsItsBytesOneByOne : Obligations.OnbytesIsItsBytesOneByOne :=
  fun _ chunk rest hi hne hin => runSteps_bytes chunk rest hi hne hin

/-- Settles O44: `step_grows`, field by field. -/
theorem streamsOnlyGrow : Obligations.StreamsOnlyGrow := by
  intro s t h
  obtain ⟨hg, hinput⟩ := step_grows h
  exact ⟨hg.tx, hg.events, hg.outputs, hinput⟩

/-- Settles O43: no step writes the parameters, by induction over the steps. -/
theorem parametersNeverChange : Obligations.ParametersNeverChange := by
  intro n
  induction n with
  | zero =>
    intro s t h
    rw [Host.Outcome.next.inj h]
  | succ n ih =>
    intro s t h
    rw [runSteps] at h
    cases hs : step s with
    | next u =>
      rw [hs] at h
      exact (ih u t h).trans (step_grows hs).1.params
    | fault r => simp [hs] at h
    | refused r => simp [hs] at h

/-- Settles O40: `step_goesOnUnless` on the refused move of the state. -/
theorem nothingIsFatal : Obligations.NothingIsFatal := by
  intro s hi
  have h := step_goesOnUnless hi
  refine ⟨fun hnone => ?_, fun r hsome => ?_⟩
  · rwa [hnone] at h
  · rwa [hsome] at h

/-- Settles O37: the reset registers, written out. -/
theorem resetValues : Obligations.ResetValues :=
  ⟨rfl, rfl, rfl, rfl, exec_connect State.powerOn⟩

/-- Settles O38: the reset decoder meets its invariant, and nothing has been emitted. -/
theorem resetMeetsTheInvariant : Obligations.ResetMeetsTheInvariant := by
  have hoff : State.powerOn.Inv := ⟨fun d hd => (nomatch hd), fun e he => (nomatch he), fun o ho => (nomatch ho)⟩
  exact ⟨setEngine_inv hoff fun d hd => Option.some.inj hd ▸ decoderReset_inv, hoff⟩

end Sys2Proof.Machine
